-- ==== Sys2Proof/Word.lean ====
section
/-! DEFINITION. The word types of the THC (spec/00_scope.md R8, R9): bytes, 32-bit bus words, 64-bit Keccak
lanes and the 10-bit byte offset of the register window. Every value is unsigned and wraps at its width (R9, R10). -/

namespace Sys2Proof

/-- A byte of BUF, DIGEST or HEX, or an 8-bit field of a register (R9). -/
abbrev Byte := BitVec 8

/-- A bus word, a SHA-256 word or a command word: 32 bits (R8). -/
abbrev Word := BitVec 32

/-- A Keccak lane: 64 bits (R8). -/
abbrev Lane := BitVec 64

/-- A byte offset in the 1 KiB register window: 10 bits (spec/20_memory.md R60). -/
abbrev Offset := BitVec 10

end Sys2Proof
end

