-- ==== Sys2Proof/Syntax.lean ====
section
/-! DEFINITION. The commands of the THC: one constructor for each row of spec/opcode_table.json
(spec/30_encoding.md R103). Commands have implicit operands only (R102), so no constructor has an argument. -/

namespace Sys2Proof

/-- The eleven commands of the opcode map (spec/30_encoding.md R103). -/
inductive Instr where
  /-- NOP, 0x00 (spec/40_command_core.md R160). -/
  | nop
  /-- SHA_INIT, 0x01 (spec/41_sha256.md R210). -/
  | shaInit
  /-- SHA_COMPRESS, 0x02 (spec/41_sha256.md R211). -/
  | shaCompress
  /-- KEC_INIT, 0x10 (spec/42_keccak.md R310). -/
  | kecInit
  /-- KEC_PERMUTE, 0x11 (spec/42_keccak.md R311). -/
  | kecPermute
  /-- KEC_ABSORB, 0x12 (spec/42_keccak.md R312). -/
  | kecAbsorb
  /-- DIG_SHA, 0x20 (spec/43_digest_hex.md R403). -/
  | digSha
  /-- DIG_KEC, 0x21 (spec/43_digest_hex.md R404). -/
  | digKec
  /-- HEX_ENC, 0x22 (spec/43_digest_hex.md R405). -/
  | hexEnc
  /-- BUF_CLEAR, 0x30 (spec/40_command_core.md R161). -/
  | bufClear
  /-- SOFT_RESET, 0xFF (spec/40_command_core.md R162). -/
  | softReset
  deriving DecidableEq, Repr

end Sys2Proof
end

