-- ==== Sys2Proof/WellFormed.lean ====
section
/-! DEFINITION. What is well formed: a command (always: no command has an operand, spec/30_encoding.md R102),
a command word (R104) and the shape of a bus access (R101, spec/20_memory.md R60, R61). -/

namespace Sys2Proof

/-- A command is well formed whatever it is: it has no register selector, immediate, length or address to check
(spec/30_encoding.md R102). Written per constructor so that a command with an operand would have to be checked. -/
def Instr.wf : Instr → Bool
  | .nop => true
  | .shaInit => true
  | .shaCompress => true
  | .kecInit => true
  | .kecPermute => true
  | .kecAbsorb => true
  | .digSha => true
  | .digKec => true
  | .hexEnc => true
  | .bufClear => true
  | .softReset => true

/-- The eleven assigned OPC values (spec/30_encoding.md R103). -/
def assignedOpcodes : List Byte :=
  [0x00, 0x01, 0x02, 0x10, 0x11, 0x12, 0x20, 0x21, 0x22, 0x30, 0xFF]

/-- Check 1: bits [31:8] of a command word are zero (spec/30_encoding.md R100, R104). -/
def reservedZero (c : Word) : Bool :=
  c.extractLsb' 8 24 == 0

/-- Check 2: bits [7:0] of a command word are an assigned opcode (spec/30_encoding.md R104). -/
def opcodeAssigned (c : Word) : Bool :=
  assignedOpcodes.contains (c.extractLsb' 0 8)

/-- A legal command word (spec/30_encoding.md R104). -/
def legalWord (c : Word) : Bool :=
  reservedZero c && opcodeAssigned c

/-- Check 3: a byte offset lies in the 1 KiB window (spec/20_memory.md R60). -/
def legalOffset (off : Nat) : Bool :=
  decide (off < 0x400)

/-- Check 4: an access width the host can present is 1, 2 or 4 bytes (spec/20_memory.md R61). -/
def legalSize (size : Nat) : Bool :=
  [1, 2, 4].contains size

end Sys2Proof
end

