-- ==== Sys2Proof/Decode.lean ====
section
/-! DEFINITION. The command decoder, total on all 2^32 words (spec/30_encoding.md R104), rejecting by name, and
after it the encoder from the opcode map (R103). Every command is one 32-bit word (R106), presented as the data
of a bus write to CMD (R100, R101): the THC fetches no instruction bytes (spec/20_memory.md R82). -/

namespace Sys2Proof

/-- Why a command word is ILLEGAL (spec/30_encoding.md R105). -/
inductive Illegal where
  /-- RSV, bits [31:8], is not zero. -/
  | reservedNotZero
  /-- RSV is zero and OPC is one of the 245 unassigned values. -/
  | opcodeUnassigned
  deriving DecidableEq, Repr

/-- The opcode map on the OPC field (spec/30_encoding.md R103, R104). -/
def decodeOpcode (opc : Byte) : Option Instr :=
  match opc with
  | 0x00#8 => some .nop
  | 0x01#8 => some .shaInit
  | 0x02#8 => some .shaCompress
  | 0x10#8 => some .kecInit
  | 0x11#8 => some .kecPermute
  | 0x12#8 => some .kecAbsorb
  | 0x20#8 => some .digSha
  | 0x21#8 => some .digKec
  | 0x22#8 => some .hexEnc
  | 0x30#8 => some .bufClear
  | 0xFF#8 => some .softReset
  | _ => none

/-- Decode(c) of spec/30_encoding.md R104. -/
def decode (c : Word) : Except Illegal Instr :=
  if c.extractLsb' 8 24 = 0 then
    match decodeOpcode (c.extractLsb' 0 8) with
    | some i => .ok i
    | none => .error .opcodeUnassigned
  else .error .reservedNotZero

/-- The decoder on an opcode-table word: the instruction has one 32-bit word (R106), bit 0 its least significant bit,
so the table's numbering is the word's own. A number of more than 32 bits is no command word. -/
def decodeTableWord (nbits w : Nat) : Option Instr :=
  if w % 2 ^ nbits < 2 ^ 32 then
    match decode (BitVec.ofNat 32 (w % 2 ^ nbits)) with
    | .ok i => some i
    | .error _ => none
  else none

/-- The OPC value of a command (spec/30_encoding.md R103). -/
def Instr.opcode : Instr → Byte
  | .nop => 0x00
  | .shaInit => 0x01
  | .shaCompress => 0x02
  | .kecInit => 0x10
  | .kecPermute => 0x11
  | .kecAbsorb => 0x12
  | .digSha => 0x20
  | .digKec => 0x21
  | .hexEnc => 0x22
  | .bufClear => 0x30
  | .softReset => 0xFF

/-- The command word of a command: RSV = 0 above its OPC (spec/30_encoding.md R100, R103). -/
def encode (i : Instr) : Word :=
  i.opcode.setWidth 32

end Sys2Proof
end

