-- ==== Sys2Proof/Config.lean ====
section
/-! DEFINITION. What the spec leaves open: the two OPEN parameters BASE and CPM (spec/92_eei_decisions.md D3, D39)
and the draws for every UNSPEC value (spec/00_scope.md R12). A draw is an opaque constant applied to a draw number
(the plain counter State.draws), so that no proof can see a value of it. -/

namespace Sys2Proof

/-- BASE is this many kibibytes: BASE is an OPEN multiple of 0x400 (spec/20_memory.md R60, D3). -/
opaque Config.baseKiB : Nat

/-- The base address of the register window, a multiple of 0x400 (spec/20_memory.md R60). -/
def Config.base : Nat := 0x400 * Config.baseKiB

/-- The cycles per micro-step less one, since CPM(op) is at least 1 (spec/70_reset_and_hazards.md R731, D39). -/
opaque Config.extraCycles : Instr → Nat

/-- CPM(op), the OPEN number of clock cycles per micro-step (spec/70_reset_and_hazards.md R731).
No rule of the model depends on it. -/
def Config.cpm (i : Instr) : Nat := Config.extraCycles i + 1

/-- The draw of H[i] at reset number d (spec/70_reset_and_hazards.md R701). -/
opaque Config.resetH : Nat → Nat → Word

/-- The draw of BUF[j] at reset number d (R701). -/
opaque Config.resetBuf : Nat → Nat → Byte

/-- The draw of lane A[i] at reset number d (R701). -/
opaque Config.resetA : Nat → Nat → Lane

/-- The draw of DIGEST[j] at reset number d (R701). -/
opaque Config.resetDigest : Nat → Nat → Byte

/-- The draw of HEX[n] at reset number d (R701). -/
opaque Config.resetHex : Nat → Nat → Byte

/-- Draw number d of the schedule window word WS[j], at a reset (R701) and outside a command that writes it
(spec/93_implementation_defined.md I13). -/
opaque Config.drawWS : Nat → Nat → Word

/-- Draw number d of the working variable V[i], at a reset (R701) and outside a command that writes it
(spec/93_implementation_defined.md I13). -/
opaque Config.drawV : Nat → Nat → Word

/-- Draw number d of the round counter T, at a reset (R701) and outside a command that writes it
(spec/93_implementation_defined.md I13). -/
opaque Config.drawT : Nat → BitVec 7

/-- Draw number d of the round index IR, at a reset (R701) and outside a command that writes it
(spec/93_implementation_defined.md I13). -/
opaque Config.drawIR : Nat → BitVec 5

/-- The fresh draw number d that a data-register read returns while BUSY = 1 (spec/20_memory.md R68). -/
opaque Config.busyRead : Nat → Word

end Sys2Proof
end

