-- ==== Sys2Proof/Machine/State.lean ====
section
/-! DEFINITION. The state of the THC (spec/10_state.md R20): control registers, data registers, hidden engine state,
and the model's own fields (draw counter, read data, turns). Plain data; State.reset is the machine after power-on
(spec/70_reset_and_hazards.md R700, R701, R704). STATUS.BUSY is not stored: it is 1 exactly when PEND holds a
command (R25), so Machine/Flags.lean computes it. ID is a constant and CMD has no storage (R22, R23). -/

namespace Sys2Proof.Machine

/-- The access width a host presents: 1, 2 or 4 bytes (spec/20_memory.md R61). -/
inductive Size where
  | one
  | two
  | four
  deriving DecidableEq, Repr

/-- One bus transaction (Format B, spec/30_encoding.md R101) at a byte offset of the window. -/
inductive Transaction where
  /-- BusRead(off, size). -/
  | read (off : Offset) (size : Size)
  /-- BusWrite(off, size, v). -/
  | write (off : Offset) (size : Size) (v : Word)
  deriving DecidableEq, Repr

/-- One turn of the two agents (spec/10_state.md R21). The list State.turns is the order in which they move; the spec
leaves that order open (spec/20_memory.md R78, spec/93_implementation_defined.md I23), so it is data of the state. -/
inductive Turn where
  /-- The host performs one transaction and the engine performs nothing. -/
  | bus (t : Transaction)
  /-- The engine performs one micro-step, if a command is pending (spec/40_command_core.md R152, R155). -/
  | engine
  /-- The host's pseudo-instruction wait: poll STATUS until BUSY = 0 (spec/30_encoding.md R108). -/
  | wait
  /-- The platform asserts the reset input, between transactions (spec/70_reset_and_hazards.md R702). -/
  | reset
  /-- The host writes c to CMD and no other transaction falls before the accepted command completes
  (spec/20_memory.md R78): the collapsed execution of spec/40_command_core.md R157. -/
  | command (c : Word)
  deriving DecidableEq, Repr

/-- The register at an aligned word of the window (spec/20_memory.md R62). -/
inductive Reg where
  | id
  | cmd
  | status
  | h (i : Fin 8)
  | bufw (k : Fin 34)
  | aLow (i : Fin 25)
  | aHigh (i : Fin 25)
  | dw (k : Fin 8)
  | hw (k : Fin 16)
  | unmapped
  deriving DecidableEq, Repr

/-- The error codes 0x01 to 0x06 by name (spec/60_exceptions.md R600). -/
inductive ErrorCode where
  | illegalCmd
  | busyCmd
  | busyWrite
  | badAccess
  | unmappedWrite
  | roWrite
  deriving DecidableEq, Repr

/-- The reasons a step can stop. The THC itself has no hang and no trap (spec/40_command_core.md R158,
spec/60_exceptions.md R613): both faults guard values that no acceptance and no micro-step produces, and no run
from reset meets either. -/
inductive Fault where
  /-- Raised by the engine's step when PEND and STEP name no micro-step: STEP ≥ LAT(PEND), or SOFT_RESET pending,
  which has no micro-steps (spec/40_command_core.md R155, R156). Safe: the machine stops where the spec gives nothing. -/
  | sequencer
  /-- Raised by a SHA-256 round with T ≥ 64 or a Keccak round with IR ≥ 24: the ROMs K and RC have no such entry
  (spec/41_sha256.md R204, spec/42_keccak.md R307). Safe: the machine stops where the spec gives nothing. -/
  | romAddress
  deriving DecidableEq, Repr

/-- The reasons a step is refused. -/
inductive Refusal where
  /-- Raised by exec's arm of an instruction that has no meaning yet; no arm does so. Safe. -/
  | notModelled (mnemonic : String)
  deriving DecidableEq, Repr

/-- The state of the THC. -/
structure State where
  /-- PEND: the accepted command, or none (spec/10_state.md R36). -/
  pend : Option Instr
  /-- STEP: the micro-step counter, 7 bits (R36). -/
  stepCtr : BitVec 7
  /-- STATUS.DONE (R26). -/
  done : Bool
  /-- STATUS.ERR (R27). -/
  err : Bool
  /-- STATUS.ERRCODE (R28). -/
  errcode : Byte
  /-- STATUS.LASTOP (R29). -/
  lastop : Byte
  /-- H[0..7]: the SHA-256 state (R30). -/
  h : Vector Word 8
  /-- BUF[0..135]: the block buffer (R31). -/
  buf : Vector Byte 136
  /-- A[0..24]: the Keccak-f[1600] state (R32). -/
  a : Vector Lane 25
  /-- DIGEST[0..31] (R33). -/
  digest : Vector Byte 32
  /-- HEX[0..63] (R34). -/
  hex : Vector Byte 64
  /-- WS[0..15]: the message-schedule window (R37). -/
  ws : Vector Word 16
  /-- V[0..7]: the working variables a to h (R37). -/
  v : Vector Word 8
  /-- T: the SHA-256 round counter, 7 bits (R37). -/
  t : BitVec 7
  /-- IR: the Keccak round index, 5 bits (R39). -/
  ir : BitVec 5
  /-- The model's own: the number of the next draw (spec/00_scope.md R12). -/
  draws : Nat
  /-- The model's own: the 32 bits the last BusRead returned to the host, if there was one (spec/20_memory.md R61). -/
  rdata : Option Word
  /-- The model's own: the turns the host and the engine take next, first one first (spec/10_state.md R21). -/
  turns : List Turn
  deriving DecidableEq, Repr

/-- Draw number d of the whole schedule window (spec/00_scope.md R12). -/
@[irreducible] def drawnWS (d : Nat) : Vector Word 16 :=
  Vector.ofFn fun j => Config.drawWS d j.val

/-- Draw number d of the eight working variables (spec/00_scope.md R12). -/
@[irreducible] def drawnV (d : Nat) : Vector Word 8 :=
  Vector.ofFn fun i => Config.drawV d i.val

/-- Reset(), with draw number d for every data and datapath register (spec/70_reset_and_hazards.md R700, R701). -/
def State.drawn (d : Nat) : State where
  pend := none
  stepCtr := 0
  done := false
  err := false
  errcode := 0
  lastop := 0
  h := Vector.ofFn fun i => Config.resetH d i.val
  buf := Vector.ofFn fun j => Config.resetBuf d j.val
  a := Vector.ofFn fun i => Config.resetA d i.val
  digest := Vector.ofFn fun j => Config.resetDigest d j.val
  hex := Vector.ofFn fun n => Config.resetHex d n.val
  ws := drawnWS d
  v := drawnV d
  t := Config.drawT d
  ir := Config.drawIR d
  draws := d + 1
  rdata := none
  turns := []

/-- The machine right after power-on (spec/70_reset_and_hazards.md R702, R704). -/
def State.reset : State := State.drawn 0

end Sys2Proof.Machine
end

