-- ==== Sys2Proof/Machine/Flags.lean ====
section
/-! DEFINITION. The flags and the STATUS word: BUSY from PEND (spec/10_state.md R25), the word a read of STATUS returns
(R24) and the error codes (spec/60_exceptions.md R600). No command sets a flag from its data (R40). -/

namespace Sys2Proof.Machine

/-- STATUS.BUSY: 1 exactly when PEND holds a command (spec/10_state.md R25). -/
def State.busy (s : State) : Bool :=
  s.pend.isSome

/-- The STATUS word: LASTOP at bit 16, ERRCODE at bit 8, ERR, DONE and BUSY at bits 2, 1 and 0; the reserved bits read 0
(spec/10_state.md R24, spec/20_memory.md R69). -/
def statusWord (s : State) : Word :=
  (s.lastop.setWidth 32 <<< 16) ||| (s.errcode.setWidth 32 <<< 8) ||| ((BitVec.ofBool s.err).setWidth 32 <<< 2) |||
    ((BitVec.ofBool s.done).setWidth 32 <<< 1) ||| (BitVec.ofBool s.busy).setWidth 32

/-- The value recorded in ERRCODE (spec/60_exceptions.md R600). -/
def ErrorCode.code : ErrorCode → Byte
  | .illegalCmd => 0x01
  | .busyCmd => 0x02
  | .busyWrite => 0x03
  | .badAccess => 0x04
  | .unmappedWrite => 0x05
  | .roWrite => 0x06

end Sys2Proof.Machine
end

