-- ==== Sys2Proof/Machine/Operands.lean ====
section
/-! DEFINITION. The operand forms: the operators of spec/00_scope.md R10, the byte views of BUF, DIGEST and HEX
(spec/20_memory.md R63), the two views of BUF (spec/10_state.md R31) and the halves of a lane (spec/20_memory.md R64). -/

namespace Sys2Proof.Machine

/-- ROTR_w(x, n) for 0 ≤ n < w (spec/00_scope.md R10). -/
def rotr {w : Nat} (x : BitVec w) (n : Nat) : BitVec w :=
  (x >>> n) ||| (x <<< (w - n))

/-- ROTL_w(x, n) for 0 ≤ n < w (spec/00_scope.md R10). -/
def rotl {w : Nat} (x : BitVec w) (n : Nat) : BitVec w :=
  (x <<< n) ||| (x >>> (w - n))

/-- SHR(x, n), a logical shift (spec/00_scope.md R10). -/
def shr {w : Nat} (x : BitVec w) (n : Nat) : BitVec w :=
  x >>> n

/-- Byte j of a value: v[8j+7 : 8j] (spec/00_scope.md R9). -/
def byteAt {w : Nat} (v : BitVec w) (j : Nat) : Byte :=
  v.extractLsb' (8 * j) 8

/-- BE32 of spec/00_scope.md R10. -/
def be32 (b0 b1 b2 b3 : Byte) : Word :=
  (b0.setWidth 32 <<< 24) ||| (b1.setWidth 32 <<< 16) ||| (b2.setWidth 32 <<< 8) ||| b3.setWidth 32

/-- The bus word of four bytes, the first in bits [7:0] (spec/20_memory.md R63). -/
def le32 (b0 b1 b2 b3 : Byte) : Word :=
  b0.setWidth 32 ||| (b1.setWidth 32 <<< 8) ||| (b2.setWidth 32 <<< 16) ||| (b3.setWidth 32 <<< 24)

/-- LE64 of spec/00_scope.md R10. -/
def le64 (b0 b1 b2 b3 b4 b5 b6 b7 : Byte) : Lane :=
  b0.setWidth 64 ||| (b1.setWidth 64 <<< 8) ||| (b2.setWidth 64 <<< 16) ||| (b3.setWidth 64 <<< 24) |||
    (b4.setWidth 64 <<< 32) ||| (b5.setWidth 64 <<< 40) ||| (b6.setWidth 64 <<< 48) ||| (b7.setWidth 64 <<< 56)

/-- Bus word k of a byte array: bytes 4k to 4k+3 in little-endian byte lanes (spec/20_memory.md R63). -/
def busWord {n : Nat} (b : Vector Byte (4 * n)) (k : Fin n) : Word :=
  le32 b[4 * k.val] b[4 * k.val + 1] b[4 * k.val + 2] b[4 * k.val + 3]

/-- A byte array after bus word k of it was written with v (spec/20_memory.md R71). -/
def setBusWord {n : Nat} (b : Vector Byte (4 * n)) (k : Fin n) (v : Word) : Vector Byte (4 * n) :=
  Vector.ofFn fun j => if j.val / 4 = k.val then byteAt v (j.val % 4) else b[j]

/-- M[0..15], the SHA-256 view of BUF: big-endian words of bytes 0 to 63 (spec/10_state.md R31). -/
def blockWords (b : Vector Byte 136) : Vector Word 16 :=
  Vector.ofFn fun t => be32 b[4 * t.val] b[4 * t.val + 1] b[4 * t.val + 2] b[4 * t.val + 3]

/-- P[j], the Keccak view of BUF: little-endian lane j of bytes 0 to 135 (spec/10_state.md R31). -/
def rateLane (b : Vector Byte 136) (j : Fin 17) : Lane :=
  le64 b[8 * j.val] b[8 * j.val + 1] b[8 * j.val + 2] b[8 * j.val + 3]
    b[8 * j.val + 4] b[8 * j.val + 5] b[8 * j.val + 6] b[8 * j.val + 7]

/-- A[i][31:0], bus word AW[2i] (spec/20_memory.md R64). -/
def laneLow (x : Lane) : Word :=
  x.extractLsb' 0 32

/-- A[i][63:32], bus word AW[2i+1] (spec/20_memory.md R64). -/
def laneHigh (x : Lane) : Word :=
  x.extractLsb' 32 32

/-- A lane with its low half replaced, the high half unchanged (spec/20_memory.md R71). -/
def setLaneLow (x : Lane) (v : Word) : Lane :=
  ((laneHigh x).setWidth 64 <<< 32) ||| v.setWidth 64

/-- A lane with its high half replaced, the low half unchanged (spec/20_memory.md R71). -/
def setLaneHigh (x : Lane) (v : Word) : Lane :=
  (v.setWidth 64 <<< 32) ||| (laneLow x).setWidth 64

end Sys2Proof.Machine
end

