-- ==== Sys2Proof/Machine/Ops.lean ====
section
/-! DEFINITION. The named operations over the state: recording an error (the whole of trap entry,
spec/60_exceptions.md R603, R613) and the STATUS write that returns from it (R605, R614); Reset(); the register map and
the two bus transactions (spec/20_memory.md R70, R74); and the life of a command: acceptance, micro-step,
completion (spec/40_command_core.md R150, R155). -/

namespace Sys2Proof.Machine

/-- The outcome of one operation that can stop. -/
abbrev Result := Host.Outcome State Fault Refusal

/-- Go on with the next state; a stop stays a stop. -/
def andThen (r : Result) (f : State → Result) : Result :=
  match r with
  | .next s => f s
  | .fault x => .fault x
  | .refused x => .refused x

/-! ## Errors -/

/-- RecordError(code): the first error is kept; nothing else changes (spec/60_exceptions.md R603). -/
def recordError (e : ErrorCode) (s : State) : State :=
  if s.err then s else { s with err := true, errcode := e.code }

/-- StatusWrite(v): write-1-to-clear of DONE and of ERR with ERRCODE (spec/60_exceptions.md R605). -/
def statusWrite (v : Word) (s : State) : State :=
  { s with
    done := if v.getLsbD 1 then false else s.done
    err := if v.getLsbD 2 then false else s.err
    errcode := if v.getLsbD 2 then 0 else s.errcode }

/-! ## Reset -/

/-- Reset(), from any state: the control state takes its defined values and every data and datapath register a draw of
its own (spec/70_reset_and_hazards.md R700, R701). The host's turns and the word it read last are not state of the THC. -/
def resetState (s : State) : State :=
  { State.drawn s.draws with rdata := s.rdata, turns := s.turns }

/-! ## The life of a command -/

/-- LAT(op), the number of micro-steps (spec/40_command_core.md R156); SOFT_RESET has none (R162). -/
def lat : Instr → Nat
  | .nop => 1
  | .shaInit => 1
  | .shaCompress => 66
  | .kecInit => 1
  | .kecPermute => 24
  | .kecAbsorb => 25
  | .digSha => 1
  | .digKec => 1
  | .hexEnc => 1
  | .bufClear => 1
  | .softReset => 0

/-- The clock cycles of a command: LAT(op) times CPM(op), an OPEN timing parameter on which no rule depends
(spec/70_reset_and_hazards.md R730, R731). -/
def commandCycles (i : Instr) : Nat :=
  lat i * Config.cpm i

/-- The hidden datapath registers become UNSPEC: WS, V, T and IR take the next draw together (spec/00_scope.md R12,
spec/10_state.md R37, R39, spec/93_implementation_defined.md I13). It is no micro-step, so no command reads or writes what it
changes. That one draw stands for a whole stretch is the model's choice, notes/assumptions/6.md. -/
def releaseHidden (s : State) : State :=
  { s with
    ws := drawnWS s.draws
    v := drawnV s.draws
    t := Config.drawT s.draws
    ir := Config.drawIR s.draws
    draws := s.draws + 1 }

/-- Acceptance of a decoded command; BUSY becomes 1 with PEND (spec/40_command_core.md R150). The hidden registers are UNSPEC
until a micro-step of it writes them (I13). -/
def accept (i : Instr) (s : State) : State :=
  { releaseHidden s with pend := some i, stepCtr := 0, done := false, lastop := i.opcode }

/-- Completion: PEND ← none, STEP ← 0, BUSY ← 0, DONE ← 1 (spec/40_command_core.md R155). The hidden registers, those that the
command wrote among them, are UNSPEC outside it (I13). -/
def complete (s : State) : State :=
  { releaseHidden s with pend := none, stepCtr := 0, done := true }

/-- The sequencing after micro-step n of a command (spec/40_command_core.md R155). -/
def advance (i : Instr) (s : State) : State :=
  if s.stepCtr.toNat + 1 = lat i then complete s else { s with stepCtr := s.stepCtr + 1 }

/-- EngineStep() for the pending command i, whose micro-step n is micro n (spec/40_command_core.md R155). Where STEP is no
micro-step of i the spec gives nothing and the machine stops. -/
def engineTick (i : Instr) (micro : Nat → State → Result) (s : State) : Result :=
  if s.stepCtr.toNat < lat i then
    andThen (micro s.stepCtr.toNat s) fun s' => .next (advance i s')
  else .fault .sequencer

/-- k engine steps in a row. -/
def engineRun (i : Instr) (micro : Nat → State → Result) : Nat → State → Result
  | 0, s => .next s
  | k + 1, s => andThen (engineTick i micro s) (engineRun i micro k)

/-- A command written to CMD and run to completion with no transaction in between: BUSY_CMD while busy, else acceptance
and its LAT(i) micro-steps (spec/40_command_core.md R150, R152, R155, R157). -/
def runCommand (i : Instr) (micro : Nat → State → Result) (s : State) : Result :=
  if s.busy then .next (recordError .busyCmd s) else engineRun i micro (lat i) (accept i s)

/-- A word that Decode maps to ILLEGAL written to CMD: BUSY_CMD comes before ILLEGAL_CMD (spec/60_exceptions.md R610). -/
def rejectIllegal (s : State) : State :=
  recordError (if s.busy then .busyCmd else .illegalCmd) s

/-- CommandWrite(c): SOFT_RESET is tested first, then BUSY, then Decode (spec/40_command_core.md R150). -/
def commandWrite (c : Word) (s : State) : State :=
  if c = 0x000000FF then resetState s
  else if s.busy then recordError .busyCmd s
  else
    match decode c with
    | .ok i => accept i s
    | .error _ => recordError .illegalCmd s

/-! ## The register window -/

/-- The value of ID: "TH", interface version 0x01, document revision 0x07 (spec/10_state.md R22). -/
def idValue : Word := 0x54480107

/-- The register that holds byte n of the window (spec/20_memory.md R62). -/
def regOfByte (n : Nat) : Reg :=
  if n < 0x004 then .id
  else if n < 0x008 then .cmd
  else if n < 0x00C then .status
  else if h : 0x040 ≤ n ∧ n < 0x060 then .h ⟨(n - 0x040) / 4, by omega⟩
  else if h : 0x080 ≤ n ∧ n < 0x108 then .bufw ⟨(n - 0x080) / 4, by omega⟩
  else if h : 0x200 ≤ n ∧ n < 0x2C8 then
    if n % 8 < 4 then .aLow ⟨(n - 0x200) / 8, by omega⟩ else .aHigh ⟨(n - 0x200) / 8, by omega⟩
  else if h : 0x300 ≤ n ∧ n < 0x320 then .dw ⟨(n - 0x300) / 4, by omega⟩
  else if h : 0x340 ≤ n ∧ n < 0x380 then .hw ⟨(n - 0x340) / 4, by omega⟩
  else .unmapped

/-- The register at an aligned offset. -/
def regAt (off : Offset) : Reg :=
  regOfByte off.toNat

/-- An access the THC implements: size 4 with off[1:0] = 0 (spec/20_memory.md R61). -/
def wordAccess (off : Offset) (size : Size) : Bool :=
  size == .four && off.extractLsb' 0 2 == 0

/-- What a data register with current value v returns: v while idle (spec/20_memory.md R67), the next draw while busy
(R68). -/
def dataRead (s : State) (v : Word) : Word :=
  if s.busy then Config.busyRead s.draws else v

/-- The value an aligned read of a register returns (spec/20_memory.md R67, R68, R69). -/
def regValue (r : Reg) (s : State) : Word :=
  match r with
  | .id => idValue
  | .cmd => 0
  | .status => statusWord s
  | .h i => dataRead s s.h[i]
  | .bufw k => dataRead s (busWord (n := 34) s.buf k)
  | .aLow i => dataRead s (laneLow s.a[i])
  | .aHigh i => dataRead s (laneHigh s.a[i])
  | .dw k => dataRead s (busWord (n := 8) s.digest k)
  | .hw k => dataRead s (busWord (n := 16) s.hex k)
  | .unmapped => 0

/-- The value BusRead(off, size) returns (spec/20_memory.md R70). -/
def busValue (off : Offset) (size : Size) (s : State) : Word :=
  if wordAccess off size then regValue (regAt off) s else 0

/-- H, BUF, A, DIGEST and HEX are the data registers (spec/20_memory.md R67). -/
def Reg.isData : Reg → Bool
  | .id => false
  | .cmd => false
  | .status => false
  | .h _ => true
  | .bufw _ => true
  | .aLow _ => true
  | .aHigh _ => true
  | .dw _ => true
  | .hw _ => true
  | .unmapped => false

/-- A read that takes a fresh draw: an aligned read of a data register while BUSY = 1 (spec/20_memory.md R68). -/
def takesDraw (off : Offset) (size : Size) (s : State) : Bool :=
  wordAccess off size && (regAt off).isData && s.busy

/-- BusRead(off, size): it changes no state of the THC (spec/20_memory.md R70, R76). The model's own fields hold the word
returned and count the draw taken. -/
def busRead (off : Offset) (size : Size) (s : State) : State :=
  { s with
    rdata := some (busValue off size s)
    draws := if takesDraw off size s then s.draws + 1 else s.draws }

/-- A write to a writable data register: BUSY_WRITE while busy (spec/20_memory.md R73), else the store f. -/
def dataWrite (f : State → State) (s : State) : State :=
  if s.busy then recordError .busyWrite s else f s

/-- An aligned write to a register (spec/20_memory.md R71, R73, R74). -/
def regWrite (r : Reg) (v : Word) (s : State) : State :=
  match r with
  | .unmapped => recordError .unmappedWrite s
  | .id => recordError .roWrite s
  | .hw _ => recordError .roWrite s
  | .status => statusWrite v s
  | .cmd => commandWrite v s
  | .h i => dataWrite (fun s => { s with h := s.h.set i v }) s
  | .bufw k => dataWrite (fun s => { s with buf := setBusWord (n := 34) s.buf k v }) s
  | .aLow i => dataWrite (fun s => { s with a := s.a.set i (setLaneLow s.a[i] v) }) s
  | .aHigh i => dataWrite (fun s => { s with a := s.a.set i (setLaneHigh s.a[i] v) }) s
  | .dw k => dataWrite (fun s => { s with digest := setBusWord (n := 8) s.digest k v }) s

/-- BusWrite(off, size, v) (spec/20_memory.md R74). -/
def busWrite (off : Offset) (size : Size) (v : Word) (s : State) : State :=
  if wordAccess off size then regWrite (regAt off) v s else recordError .badAccess s

/-- One bus transaction, indivisible (spec/20_memory.md R75). -/
def transact : Transaction → State → State
  | .read off size, s => busRead off size s
  | .write off size v, s => busWrite off size v s

/-- The offset of STATUS (spec/20_memory.md R62). -/
def statusOffset : Offset := 0x008

/-- The offset of CMD (spec/20_memory.md R62). -/
def cmdOffset : Offset := 0x004

/-- One poll of the pseudo-instruction wait: read STATUS; while BUSY = 1 the engine has a turn and the host polls again
(spec/30_encoding.md R108, spec/40_command_core.md R158). rest are the turns after the wait. -/
def pollStatus (rest : List Turn) (s : State) : State :=
  { busRead statusOffset .four s with turns := if s.busy then .engine :: .wait :: rest else rest }

end Sys2Proof.Machine
end

