-- ==== Sys2Proof/Machine/Control.lean ====
section
/-! DEFINITION. The control commands NOP, BUF_CLEAR and SOFT_RESET (spec/40_command_core.md R160, R161, R162). -/

namespace Sys2Proof.Machine

/-- MicroStep(NOP, 0): nothing (spec/40_command_core.md R160). -/
def nopMicro (_ : Nat) (s : State) : Result :=
  .next s

/-- NOP (spec/40_command_core.md R160). -/
def execNop (s : State) : Result :=
  runCommand .nop nopMicro s

/-- MicroStep(BUF_CLEAR, 0): all 136 bytes of BUF become 0 (spec/40_command_core.md R161). -/
def bufClearMicro (_ : Nat) (s : State) : Result :=
  .next { s with buf := Vector.ofFn fun _ => 0 }

/-- BUF_CLEAR (spec/40_command_core.md R161). -/
def execBufClear (s : State) : Result :=
  runCommand .bufClear bufClearMicro s

/-- SOFT_RESET: Reset() inside the CMD write, busy or idle; a pending command is abandoned (spec/40_command_core.md R162). -/
def execSoftReset (s : State) : Result :=
  .next (resetState s)

end Sys2Proof.Machine
end

