-- ==== Sys2Proof/Machine/Digest.lean ====
section
/-! DEFINITION. Digest serialization and the common hex encoder: DIG_SHA, DIG_KEC and HEX_ENC
(spec/43_digest_hex.md R400 to R405). -/

namespace Sys2Proof.Machine

/-- HexChar(v) (spec/43_digest_hex.md R400). -/
def hexChar (v : BitVec 4) : Byte :=
  if v.toNat ≤ 9 then 0x30 + v.setWidth 8 else 0x61 + (v.setWidth 8 - 10)

/-- The eight words of H serialized big-endian, in state order (spec/43_digest_hex.md R403). -/
def serializeH (h : Vector Word 8) : Vector Byte 32 :=
  Vector.ofFn fun j => byteAt (h[j.val / 4]) (3 - j.val % 4)

/-- Lanes 0 to 3 of A serialized little-endian, in index order (spec/43_digest_hex.md R404). -/
def serializeA (a : Vector Lane 25) : Vector Byte 32 :=
  Vector.ofFn fun j => byteAt (a[j.val / 8]) (j.val % 8)

/-- Two characters for each digest byte, the high nibble first (spec/43_digest_hex.md R401, R405). -/
def hexEncode (d : Vector Byte 32) : Vector Byte 64 :=
  Vector.ofFn fun n =>
    hexChar (if n.val % 2 = 0 then (d[n.val / 2]).extractLsb' 4 4 else (d[n.val / 2]).extractLsb' 0 4)

/-- MicroStep(DIG_SHA, 0) (spec/43_digest_hex.md R403). -/
def digShaMicro (_ : Nat) (s : State) : Result :=
  .next { s with digest := serializeH s.h }

/-- DIG_SHA (spec/43_digest_hex.md R403). -/
def execDigSha (s : State) : Result :=
  runCommand .digSha digShaMicro s

/-- MicroStep(DIG_KEC, 0) (spec/43_digest_hex.md R404). -/
def digKecMicro (_ : Nat) (s : State) : Result :=
  .next { s with digest := serializeA s.a }

/-- DIG_KEC (spec/43_digest_hex.md R404). -/
def execDigKec (s : State) : Result :=
  runCommand .digKec digKecMicro s

/-- MicroStep(HEX_ENC, 0) (spec/43_digest_hex.md R405). -/
def hexEncMicro (_ : Nat) (s : State) : Result :=
  .next { s with hex := hexEncode s.digest }

/-- HEX_ENC (spec/43_digest_hex.md R405). -/
def execHexEnc (s : State) : Result :=
  runCommand .hexEnc hexEncMicro s

end Sys2Proof.Machine
end

