-- ==== Sys2Proof/Machine/Keccak.lean ====
section
/-! DEFINITION. The Keccak-f[1600] engine: the five step mappings and their ROMs (spec/42_keccak.md R300 to R307), the round
and the permutation (R308), the chain form of ρ and π (R309), and the commands KEC_INIT, KEC_PERMUTE and KEC_ABSORB as
their micro-steps (R310, R311, R312). Every mapping is a function of its whole input state (R300). -/

namespace Sys2Proof.Machine

/-! ## Step mappings -/

/-- θ (spec/42_keccak.md R301). -/
def theta (a : Vector Lane 25) : Vector Lane 25 :=
  let parity : Vector Lane 5 := Vector.ofFn fun x =>
    a[x.val] ^^^ a[x.val + 5] ^^^ a[x.val + 10] ^^^ a[x.val + 15] ^^^ a[x.val + 20]
  let corr : Vector Lane 5 := Vector.ofFn fun x =>
    parity[(x.val + 4) % 5]'(by omega) ^^^ rotl (parity[(x.val + 1) % 5]'(by omega)) 1
  Vector.ofFn fun i => a[i] ^^^ corr[i.val % 5]'(by omega)

/-- The rotation amounts of row y, columns 0 to 4 (spec/42_keccak.md R303). -/
def rhoRow : Fin 5 → Vector Nat 5
  | 0 => #v[0, 1, 62, 28, 27]
  | 1 => #v[36, 44, 6, 55, 20]
  | 2 => #v[3, 10, 43, 25, 39]
  | 3 => #v[41, 45, 15, 21, 8]
  | 4 => #v[18, 2, 61, 56, 14]

/-- The RHO ROM: the rotation amount of lane i = x + 5y (spec/42_keccak.md R303). -/
def rhoRom : Vector Nat 25 :=
  Vector.ofFn fun i => (rhoRow ⟨i.val / 5, by omega⟩)[i.val % 5]

/-- ρ (spec/42_keccak.md R302). -/
def rho (a : Vector Lane 25) : Vector Lane 25 :=
  Vector.ofFn fun i => rotl a[i] rhoRom[i]

/-- The PI ROM: the lane that moves to position d (spec/42_keccak.md R304). -/
def piSrc : Vector (Fin 25) 25 :=
  #v[0, 6, 12, 18, 24, 3, 9, 10, 16, 22, 1, 7, 13, 19, 20, 4, 5, 11, 17, 23, 2, 8, 14, 15, 21]

/-- π (spec/42_keccak.md R304). -/
def pi (a : Vector Lane 25) : Vector Lane 25 :=
  Vector.ofFn fun d => a[piSrc[d]]

/-- χ (spec/42_keccak.md R305); lane i is at column i mod 5 of row i div 5. -/
def chi (a : Vector Lane 25) : Vector Lane 25 :=
  Vector.ofFn fun i =>
    a[i] ^^^ (~~~(a[(i.val + 1) % 5 + 5 * (i.val / 5)]'(by omega)) &&&
      a[(i.val + 2) % 5 + 5 * (i.val / 5)]'(by omega))

/-- The table of the RC ROM, each round constant with its 7-bit code, RC[ir] and RCC[ir] (spec/42_keccak.md R307). -/
def rcTable : Vector (Lane × BitVec 7) 24 :=
  #v[(0x0000000000000001, 0x01), (0x0000000000008082, 0x1A), (0x800000000000808A, 0x5E),
     (0x8000000080008000, 0x70), (0x000000000000808B, 0x1F), (0x0000000080000001, 0x21),
     (0x8000000080008081, 0x79), (0x8000000000008009, 0x55), (0x000000000000008A, 0x0E),
     (0x0000000000000088, 0x0C), (0x0000000080008009, 0x35), (0x000000008000000A, 0x26),
     (0x000000008000808B, 0x3F), (0x800000000000008B, 0x4F), (0x8000000000008089, 0x5D),
     (0x8000000000008003, 0x53), (0x8000000000008002, 0x52), (0x8000000000000080, 0x48),
     (0x000000000000800A, 0x16), (0x800000008000000A, 0x66), (0x8000000080008081, 0x79),
     (0x8000000000008080, 0x58), (0x0000000080000001, 0x21), (0x8000000080008008, 0x74)]

/-- The RC ROM: 24 round constants (spec/42_keccak.md R307). -/
def rcRom : Vector Lane 24 :=
  Vector.ofFn fun ir => rcTable[ir].1

/-- RCC, the 7-bit code of each round constant (spec/42_keccak.md R307). -/
def rccRom : Vector (BitVec 7) 24 :=
  Vector.ofFn fun ir => rcTable[ir].2

/-- The expansion of a code: bit j sets bit 2^j - 1 (spec/42_keccak.md R307). -/
def expandRcc (code : BitVec 7) : Lane :=
  (List.range 7).foldl (fun rc j => if code.getLsbD j then rc ||| (1#64 <<< (2 ^ j - 1)) else rc) 0

/-- ι with a round constant: lane 0 only (spec/42_keccak.md R306). -/
def iota (a : Vector Lane 25) (rc : Lane) : Vector Lane 25 :=
  a.set 0 (a[0] ^^^ rc)

/-! ## Round and permutation -/

/-- KRound(A, ir), with rc = RC[ir] (spec/42_keccak.md R308). -/
def kRound (a : Vector Lane 25) (rc : Lane) : Vector Lane 25 :=
  iota (chi (pi (rho (theta a)))) rc

/-- The state after rounds 0 to n-1 (spec/42_keccak.md R308). -/
def keccakRounds (a : Vector Lane 25) : (n : Nat) → n ≤ 24 → Vector Lane 25
  | 0, _ => a
  | n + 1, hn => kRound (keccakRounds a n (by omega)) rcRom[n]

/-- KeccakF(A) (spec/42_keccak.md R308). -/
def keccakF (a : Vector Lane 25) : Vector Lane 25 :=
  keccakRounds a 24 (by omega)

/-! ## The chain form of ρ and π (informative) -/

/-- ROTC and PILN of the chain implementation, entry by entry (spec/42_keccak.md R309). -/
def chainRom : List (Nat × Fin 25) :=
  [(1, 10), (3, 7), (6, 11), (10, 17), (15, 18), (21, 3), (28, 5), (36, 16), (45, 8), (55, 21), (2, 24), (14, 4),
   (27, 15), (41, 23), (56, 19), (8, 13), (25, 12), (43, 2), (62, 20), (18, 14), (39, 22), (61, 9), (20, 6), (44, 1)]

/-- The chain: the carried lane t goes to lane j rotated, and lane j is carried on (spec/42_keccak.md R309). -/
def chainFrom (t : Lane) : List (Nat × Fin 25) → Vector Lane 25 → Vector Lane 25
  | [], a => a
  | (r, j) :: rest, a => chainFrom a[j] rest (a.set j (rotl t r))

/-- The chain form, carrying A[1] first (spec/42_keccak.md R309). -/
def rhoPiChain (a : Vector Lane 25) : Vector Lane 25 :=
  chainFrom a[1] chainRom a

/-! ## KEC_INIT -/

/-- MicroStep(KEC_INIT, 0): zero A (spec/42_keccak.md R310). -/
def kecInitMicro (_ : Nat) (s : State) : Result :=
  .next { s with a := Vector.ofFn fun _ => 0 }

/-- KEC_INIT (spec/42_keccak.md R310). -/
def execKecInit (s : State) : Result :=
  runCommand .kecInit kecInitMicro s

/-! ## KEC_PERMUTE and KEC_ABSORB -/

/-- One round, RC addressed by IR (spec/42_keccak.md R311, R312, R313). -/
def kecRoundStep (s : State) : Result :=
  if hr : s.ir.toNat < 24 then
    .next { s with a := kRound s.a rcRom[s.ir.toNat], ir := s.ir + 1 }
  else .fault .romAddress

/-- MicroStep(KEC_PERMUTE, n), n = 0..23 (spec/42_keccak.md R311). -/
def kecPermuteMicro (n : Nat) (s : State) : Result :=
  kecRoundStep (if n = 0 then { s with ir := 0 } else s)

/-- KEC_PERMUTE: Keccak-f[1600] on A (spec/42_keccak.md R311). -/
def execKecPermute (s : State) : Result :=
  runCommand .kecPermute kecPermuteMicro s

/-- A with the rate block XORed into lanes 0 to 16 (spec/42_keccak.md R312). -/
def xorRate (a : Vector Lane 25) (b : Vector Byte 136) : Vector Lane 25 :=
  Vector.ofFn fun i => if hi : i.val < 17 then a[i] ^^^ rateLane b ⟨i.val, hi⟩ else a[i]

/-- MicroStep(KEC_ABSORB, 0) (spec/42_keccak.md R312). -/
def kecXorStep (s : State) : State :=
  { s with a := xorRate s.a s.buf, ir := 0 }

/-- MicroStep(KEC_ABSORB, n), n = 0..24 (spec/42_keccak.md R312). -/
def kecAbsorbMicro (n : Nat) (s : State) : Result :=
  if n = 0 then .next (kecXorStep s) else kecRoundStep s

/-- KEC_ABSORB: XOR the rate block into A, then permute (spec/42_keccak.md R312). -/
def execKecAbsorb (s : State) : Result :=
  runCommand .kecAbsorb kecAbsorbMicro s

end Sys2Proof.Machine
end

