-- ==== Sys2Proof/Machine/Sha256.lean ====
section
/-! DEFINITION. The SHA-256 block compressor: its functions, ROMs, schedule and round (spec/41_sha256.md R200 to R207),
the compression function as the spec defines it over the whole schedule (R205, R208), and the commands SHA_INIT and
SHA_COMPRESS as their micro-steps (R210, R211). All additions are mod 2^32. -/

namespace Sys2Proof.Machine

/-! ## Functions -/

/-- The exclusive or of three words, the shape that Maj and the four sigma functions share (spec/41_sha256.md R200, R201,
R202). -/
def xor3 (p q r : Word) : Word :=
  p ^^^ q ^^^ r

/-- σ0(x) (spec/41_sha256.md R202). -/
def smallSigma0 (x : Word) : Word :=
  xor3 (rotr x 7) (rotr x 18) (shr x 3)

/-- σ1(x) (spec/41_sha256.md R202). -/
def smallSigma1 (x : Word) : Word :=
  xor3 (rotr x 17) (rotr x 19) (shr x 10)

/-- Σ0(x) (spec/41_sha256.md R201). -/
def bigSigma0 (x : Word) : Word :=
  xor3 (rotr x 2) (rotr x 13) (rotr x 22)

/-- Σ1(x) (spec/41_sha256.md R201). -/
def bigSigma1 (x : Word) : Word :=
  xor3 (rotr x 6) (rotr x 11) (rotr x 25)

/-- Maj(x, y, z) (spec/41_sha256.md R200). -/
def maj (x y z : Word) : Word :=
  xor3 (x &&& y) (x &&& z) (y &&& z)

/-- Ch(x, y, z) (spec/41_sha256.md R200). -/
def ch (x y z : Word) : Word :=
  (x &&& y) ^^^ (~~~x &&& z)

/-! ## ROMs -/

/-- The IV ROM (spec/41_sha256.md R203). -/
def ivRom : Vector Word 8 :=
  #v[0x6a09e667, 0xbb67ae85, 0x3c6ef372, 0xa54ff53a, 0x510e527f, 0x9b05688c, 0x1f83d9ab, 0x5be0cd19]

/-- The table of the K ROM, row r holding K[8r] to K[8r+7] (spec/41_sha256.md R204). -/
def kRow : Fin 8 → Vector Word 8
  | 0 => #v[0x428a2f98, 0x71374491, 0xb5c0fbcf, 0xe9b5dba5, 0x3956c25b, 0x59f111f1, 0x923f82a4, 0xab1c5ed5]
  | 1 => #v[0xd807aa98, 0x12835b01, 0x243185be, 0x550c7dc3, 0x72be5d74, 0x80deb1fe, 0x9bdc06a7, 0xc19bf174]
  | 2 => #v[0xe49b69c1, 0xefbe4786, 0x0fc19dc6, 0x240ca1cc, 0x2de92c6f, 0x4a7484aa, 0x5cb0a9dc, 0x76f988da]
  | 3 => #v[0x983e5152, 0xa831c66d, 0xb00327c8, 0xbf597fc7, 0xc6e00bf3, 0xd5a79147, 0x06ca6351, 0x14292967]
  | 4 => #v[0x27b70a85, 0x2e1b2138, 0x4d2c6dfc, 0x53380d13, 0x650a7354, 0x766a0abb, 0x81c2c92e, 0x92722c85]
  | 5 => #v[0xa2bfe8a1, 0xa81a664b, 0xc24b8b70, 0xc76c51a3, 0xd192e819, 0xd6990624, 0xf40e3585, 0x106aa070]
  | 6 => #v[0x19a4c116, 0x1e376c08, 0x2748774c, 0x34b0bcb5, 0x391c0cb3, 0x4ed8aa4a, 0x5b9cca4f, 0x682e6ff3]
  | 7 => #v[0x748f82ee, 0x78a5636f, 0x84c87814, 0x8cc70208, 0x90befffa, 0xa4506ceb, 0xbef9a3f7, 0xc67178f2]

/-- The K ROM: 64 round constants, K[t] at row t div 8 (spec/41_sha256.md R204). -/
def kRom : Vector Word 64 :=
  Vector.ofFn fun t => (kRow ⟨t.val / 8, by omega⟩)[t.val % 8]

/-! ## Schedule and round -/

/-- Round(t, V, k, w) on the working variables a to h (spec/41_sha256.md R206). -/
def shaRound (v : Vector Word 8) (k w : Word) : Vector Word 8 :=
  let t1 := v[7] + bigSigma1 v[4] + ch v[4] v[5] v[6] + k + w
  let t2 := bigSigma0 v[0] + maj v[0] v[1] v[2]
  #v[t1 + t2, v[0], v[1], v[2], v[3] + t1, v[4], v[5], v[6]]

/-- ScheduleShift(): the window moves on by one schedule word (spec/41_sha256.md R207). -/
def scheduleShift (ws : Vector Word 16) : Vector Word 16 :=
  #v[ws[1], ws[2], ws[3], ws[4], ws[5], ws[6], ws[7], ws[8], ws[9], ws[10], ws[11], ws[12], ws[13], ws[14], ws[15],
     smallSigma1 ws[14] + ws[9] + smallSigma0 ws[1] + ws[0]]

/-- W[0 .. 15+n] from M[0..15]: word t ≥ 16 is σ1(W[t-2]) + W[t-7] + σ0(W[t-15]) + W[t-16] (spec/41_sha256.md R205). -/
def schedule (m : Vector Word 16) : (n : Nat) → Vector Word (16 + n)
  | 0 => m
  | n + 1 =>
    let w := schedule m n
    w.push (smallSigma1 w[n + 14] + w[n + 9] + smallSigma0 w[n + 1] + w[n])

/-- The working variables after rounds 0 to n-1 over a schedule (spec/41_sha256.md R206, R208). -/
def shaRounds (w : Vector Word 64) (v : Vector Word 8) : (n : Nat) → n ≤ 64 → Vector Word 8
  | 0, _ => v
  | n + 1, hn => shaRound (shaRounds w v n (by omega)) kRom[n] w[n]

/-- The feed-forward addition of the working variables, each mod 2^32 (spec/41_sha256.md R208). -/
def feedForward (h v : Vector Word 8) : Vector Word 8 :=
  Vector.ofFn fun i => h[i] + v[i]

/-- Compress(H, M) (spec/41_sha256.md R208). -/
def compress (h : Vector Word 8) (m : Vector Word 16) : Vector Word 8 :=
  feedForward h (shaRounds (schedule m 48) h 64 (by omega))

/-! ## SHA_INIT -/

/-- MicroStep(SHA_INIT, 0): load the IV (spec/41_sha256.md R210). -/
def shaInitMicro (_ : Nat) (s : State) : Result :=
  .next { s with h := ivRom }

/-- SHA_INIT (spec/41_sha256.md R210). -/
def execShaInit (s : State) : Result :=
  runCommand .shaInit shaInitMicro s

/-! ## SHA_COMPRESS -/

/-- MicroStep(SHA_COMPRESS, 0): load the window and the working variables (spec/41_sha256.md R211). -/
def shaLoad (s : State) : State :=
  { s with ws := blockWords s.buf, v := s.h, t := 0 }

/-- MicroStep(SHA_COMPRESS, n) for n = 1..64: one round, K addressed by T (spec/41_sha256.md R211, R212). -/
def shaRoundStep (s : State) : Result :=
  if ht : s.t.toNat < 64 then
    .next { s with v := shaRound s.v kRom[s.t.toNat] s.ws[0], ws := scheduleShift s.ws, t := s.t + 1 }
  else .fault .romAddress

/-- MicroStep(SHA_COMPRESS, 65): feed-forward (spec/41_sha256.md R211). -/
def shaFinish (s : State) : State :=
  { s with h := feedForward s.h s.v }

/-- MicroStep(SHA_COMPRESS, n), n = 0..65 (spec/41_sha256.md R211). -/
def shaCompressMicro (n : Nat) (s : State) : Result :=
  if n = 0 then .next (shaLoad s)
  else if n ≤ 64 then shaRoundStep s
  else .next (shaFinish s)

/-- SHA_COMPRESS: one compression of BUF[0..63] into H (spec/41_sha256.md R211). -/
def execShaCompress (s : State) : Result :=
  runCommand .shaCompress shaCompressMicro s

end Sys2Proof.Machine
end

