-- ==== Sys2Proof/Machine/Engine.lean ====
section
/-! DEFINITION. The engine's step: one micro-step of the pending command (spec/40_command_core.md R155). -/

namespace Sys2Proof.Machine

/-- MicroStep(op, n) for every command (spec/40_command_core.md R155). SOFT_RESET has no micro-steps (R162). -/
def microStep : Instr → Nat → State → Result
  | .nop => nopMicro
  | .shaInit => shaInitMicro
  | .shaCompress => shaCompressMicro
  | .kecInit => kecInitMicro
  | .kecPermute => kecPermuteMicro
  | .kecAbsorb => kecAbsorbMicro
  | .digSha => digShaMicro
  | .digKec => digKecMicro
  | .hexEnc => hexEncMicro
  | .bufClear => bufClearMicro
  | .softReset => fun _ _ => .fault .sequencer

/-- The engine's step: no micro-step while PEND = none (spec/40_command_core.md R152), else EngineStep() (R155). -/
def engineStep (s : State) : Result :=
  match s.pend with
  | none => .next s
  | some i => engineTick i (microStep i) s

end Sys2Proof.Machine
end

