-- ==== Sys2Proof/Machine/Dispatch.lean ====
section
/-! DEFINITION. exec: the meaning of each command of the opcode map (spec/30_encoding.md R103), one arm per constructor. -/

namespace Sys2Proof.Machine

def exec (i : Instr) (s : State) : Host.Outcome State Fault Refusal :=
  match i with
  | .nop => Sys2Proof.Machine.execNop s
  | .shaInit => Sys2Proof.Machine.execShaInit s
  | .shaCompress => Sys2Proof.Machine.execShaCompress s
  | .kecInit => Sys2Proof.Machine.execKecInit s
  | .kecPermute => Sys2Proof.Machine.execKecPermute s
  | .kecAbsorb => Sys2Proof.Machine.execKecAbsorb s
  | .digSha => Sys2Proof.Machine.execDigSha s
  | .digKec => Sys2Proof.Machine.execDigKec s
  | .hexEnc => Sys2Proof.Machine.execHexEnc s
  | .bufClear => Sys2Proof.Machine.execBufClear s
  | .softReset => Sys2Proof.Machine.execSoftReset s

end Sys2Proof.Machine
end

