-- ==== Sys2Proof/Machine/Step.lean ====
section
/-! DEFINITION. One step of the machine: the next turn of State.turns is taken by the host or by the engine
(spec/10_state.md R21, spec/20_memory.md R75, R78). With no turn left only the engine can move; an idle machine with
no turn left stays as it is (spec/40_command_core.md R152, R158). -/

namespace Sys2Proof.Machine

/-- One step. -/
def step (s : State) : Host.Outcome State Fault Refusal :=
  match s.turns with
  | [] => engineStep s
  | .bus t :: rest => .next (transact t { s with turns := rest })
  | .engine :: rest => engineStep { s with turns := rest }
  | .wait :: rest => .next (pollStatus rest s)
  | .reset :: rest => .next (resetState { s with turns := rest })
  | .command c :: rest =>
    match decode c with
    | .ok i => exec i { s with turns := rest }
    | .error _ => .next (rejectIllegal { s with turns := rest })

/-- s with the command word w as the host's next CMD write: the next step decodes and runs it. The THC fetches no
instruction (spec/20_memory.md R82); its program is what the host writes to CMD (spec/10_state.md R38). -/
def State.withFetchWord (s : State) (nbits w : Nat) : State :=
  { s with turns := .command (BitVec.ofNat 32 (w % 2 ^ nbits)) :: s.turns }

end Sys2Proof.Machine
end

