-- ==== Sys2Proof/Machine/HostProc.lean ====
section
/-! DEFINITION. The host's side: how an access on the platform bus reaches the window (spec/20_memory.md R60, R61), the
assembler forms and pseudo-instructions as turns (spec/30_encoding.md R107, R108), a host that issues its turns one at a
time and keeps the words it reads, and the normative host procedures sha256 and keccak256 (spec/45_host_protocol.md R500
to R512). The host's context is software state, not state of the THC (spec/10_state.md R42), so it stands in structures
of its own. -/

namespace Sys2Proof.Machine

/-! ## The platform bus -/

/-- The width a host presents, in bytes (spec/20_memory.md R61). -/
def hostSize (n : Nat) : Option Size :=
  if n = 1 then some .one else if n = 2 then some .two else if n = 4 then some .four else none

/-- The transaction that an access at a bus address makes at the window, or none where the address does not reach the THC
(spec/20_memory.md R60); data is the word written, or none for a read. -/
def atBus (base addr size : Nat) (data : Option Word) : Option Transaction :=
  if base ≤ addr ∧ legalOffset (addr - base) then
    (hostSize size).map fun z =>
      match data with
      | none => .read (BitVec.ofNat 10 (addr - base)) z
      | some v => .write (BitVec.ofNat 10 (addr - base)) z v
  else none

/-- The host's next access at a bus address of the platform, after the turns already there. -/
def State.hostAccess (s : State) (addr size : Nat) (data : Option Word) : State :=
  match atBus Config.base addr size data with
  | some t => { s with turns := s.turns ++ [.bus t] }
  | none => s

/-! ## Assembler forms and pseudo-instructions -/

/-- rd.1 off and rd.2 off, and rd off at size 4 (spec/30_encoding.md R107). -/
def rdSize (size : Size) (off : Nat) : Turn :=
  .bus (.read (BitVec.ofNat 10 off) size)

/-- wr.1 off, v and wr.2 off, v, and wr off, v at size 4 (spec/30_encoding.md R107). -/
def wrSize (size : Size) (off : Nat) (v : Word) : Turn :=
  .bus (.write (BitVec.ofNat 10 off) size v)

/-- rd off (spec/30_encoding.md R107). -/
def rd (off : Nat) : Turn :=
  rdSize .four off

/-- wr off, v (spec/30_encoding.md R107). -/
def wr (off : Nat) (v : Word) : Turn :=
  wrSize .four off v

/-- cmd MNEMONIC (spec/30_encoding.md R108). -/
def cmd (i : Instr) : Turn :=
  wr 0x004 (encode i)

/-- run MNEMONIC (spec/30_encoding.md R108). -/
def run (i : Instr) : List Turn :=
  [cmd i, .wait]

/-- clrst (spec/30_encoding.md R108). -/
def clrst : Turn :=
  wr 0x008 0x00000006

/-- The first n buffer words of a byte sequence, zero past its end (spec/30_encoding.md R108). -/
def loadWords (n : Nat) (b : List Byte) : List Turn :=
  (List.range n).map fun k =>
    wr (0x080 + 4 * k) (le32 (b.getD (4 * k) 0) (b.getD (4 * k + 1) 0) (b.getD (4 * k + 2) 0) (b.getD (4 * k + 3) 0))

/-- ldbuf bytes (spec/30_encoding.md R108). -/
def ldbuf (b : List Byte) : List Turn :=
  loadWords 34 b

/-- ldbuf64 bytes (spec/30_encoding.md R108). -/
def ldbuf64 (b : List Byte) : List Turn :=
  loadWords 16 b

/-- ldlane i, v64: low half, then high half (spec/30_encoding.md R108). -/
def ldlane (i : Fin 25) (x : Lane) : List Turn :=
  [wr (0x200 + 8 * i.val) (laneLow x), wr (0x204 + 8 * i.val) (laneHigh x)]

/-- rdhex (spec/30_encoding.md R108). -/
def rdhex : List Turn :=
  (List.range 16).map fun k => rd (0x340 + 4 * k)

/-- The string of the words that rdhex read: the bytes of each word, low byte first, in offset order (spec/30_encoding.md
R108). While idle, character n is byte n mod 4 of HW[n div 4] (spec/43_digest_hex.md R407); while busy each word is a draw
of its own (spec/20_memory.md R68). -/
def hexString (words : List Word) : List Byte :=
  words.flatMap fun w => [byteAt w 0, byteAt w 1, byteAt w 2, byteAt w 3]

/-! ## A host that runs its turns -/

/-- The steps that one turn of the host takes at most: a wait polls once for each of the 66 micro-steps of the longest
command that are left, with the micro-step after it, and once more at BUSY = 0 (spec/40_command_core.md R156, R158). -/
def turnSteps : Nat := 133

/-- The machine steps until no turn is left, fuel steps at most; none where a turn is left then, or where it stops. It ends as
soon as the last turn is over, with no engine step after it: the model's choice of schedule, notes/assumptions/3.md. -/
def drain : (fuel : Nat) → State → Option State
  | 0, s => if s.turns = [] then some s else none
  | fuel + 1, s =>
    match s.turns with
    | [] => some s
    | _ :: _ =>
      match step s with
      | .next s' => drain fuel s'
      | .fault _ => none
      | .refused _ => none

/-- The word that a turn gave the host's program: that of a read. The STATUS words of a wait go to the wait itself
(spec/30_encoding.md R108). -/
def received : Turn → State → List Word
  | .bus (.read _ _), s => s.rdata.toList
  | .bus (.write _ _ _), _ => []
  | .engine, _ => []
  | .wait, _ => []
  | .reset, _ => []
  | .command _, _ => []

/-- The host issues its turns one at a time, each after the one before is over (spec/20_memory.md R78): the state at the end
and the words its reads returned, in order. Between two turns the engine takes no step here, and all micro-steps of a command
fall inside its wait, where R78 and I23 admit any number of them at any gap: the model's choice of schedule,
notes/assumptions/3.md. A run under another schedule is a list of bus and engine turns in State.turns. -/
def hostTurns : List Turn → State → Option (State × List Word)
  | [], s => some (s, [])
  | t :: rest, s =>
    match drain turnSteps { s with turns := [t] } with
    | none => none
    | some u =>
      match hostTurns rest u with
      | none => none
      | some (z, words) => some (z, received t u ++ words)

/-- expect off, v: rd off, and the host's check that the word it got is v; the THC sees only the read (spec/30_encoding.md
R108). -/
def expect (off : Nat) (v : Word) (s : State) : Option (State × Bool) :=
  (hostTurns [rd off] s).map fun r => (r.1, r.2 == [v])

/-- How many times a list of turns issues a command (spec/45_host_protocol.md R506, R513). -/
def commandCount (i : Instr) (ts : List Turn) : Nat :=
  ts.countP fun t => t == cmd i

/-- A host array with bytes lo to hi-1 set to 0x00. -/
def zeroBytes {n : Nat} (b : Vector Byte n) (lo hi : Nat) : Vector Byte n :=
  Vector.ofFn fun j => if lo ≤ j.val ∧ j.val < hi then 0 else b[j]

/-! ## SHA-256 -/

/-- The host's SHA-256 context (spec/45_host_protocol.md R501): fill is at most 63 between transforms. -/
structure ShaContext where
  fill : Fin 64
  blk : Vector Byte 64
  totalBits : BitVec 64
  deriving DecidableEq, Repr

/-- sha256 init: the context, blk left as it is, and the turns (spec/45_host_protocol.md R502). -/
def shaStart (blk : Vector Byte 64) : ShaContext × List Turn :=
  (⟨0, blk, 0⟩, run .shaInit)

/-- sha256 update by one byte (spec/45_host_protocol.md R503). -/
def shaUpdateByte (c : ShaContext) (b : Byte) : ShaContext × List Turn :=
  let blk := c.blk.set c.fill b
  if hf : c.fill.val + 1 < 64 then (⟨⟨c.fill.val + 1, hf⟩, blk, c.totalBits⟩, [])
  else (⟨0, blk, c.totalBits + 512⟩, ldbuf64 blk.toList ++ run .shaCompress)

/-- sha256 update: the bytes one at a time (spec/45_host_protocol.md R503). -/
def shaUpdate (c : ShaContext) : List Byte → ShaContext × List Turn
  | [] => (c, [])
  | b :: rest =>
    let (c', ts) := shaUpdateByte c b
    let (c'', ts') := shaUpdate c' rest
    (c'', ts ++ ts')

/-- The block that finalization loads last: zero to byte 55, then the bit length big-endian (spec/45_host_protocol.md R504). -/
def shaLastBlock (blk : Vector Byte 64) (fill : Nat) (len : BitVec 64) : Vector Byte 64 :=
  let padded := zeroBytes blk fill 56
  Vector.ofFn fun j => if 56 ≤ j.val then byteAt len (63 - j.val) else padded[j]

/-- sha256 finalize: one or two transforms, then the digest and its hex string (spec/45_host_protocol.md R504, R505). R506's
example that 119 bytes give 3 transforms contradicts this pseudocode and R506's own formula, which give 2: the model follows
the pseudocode and the formula, its choice, notes/assumptions/14.md. -/
def shaFinal (c : ShaContext) : List Turn :=
  let len := c.totalBits + BitVec.ofNat 64 (8 * c.fill.val)
  let blk := c.blk.set c.fill 0x80
  let fill := c.fill.val + 1
  let blocks :=
    if fill > 56 then
      let full := zeroBytes blk fill 64
      ldbuf64 full.toList ++ run .shaCompress ++ ldbuf64 (shaLastBlock full 0 len).toList ++ run .shaCompress
    else ldbuf64 (shaLastBlock blk fill len).toList ++ run .shaCompress
  blocks ++ run .digSha ++ run .hexEnc ++ rdhex

/-- The whole sha256 procedure; a message of 2^61 bytes or more is refused (spec/45_host_protocol.md R502 to R507). -/
def sha256Turns (blk : Vector Byte 64) (msg : List Byte) : Option (List Turn) :=
  if msg.length < 2 ^ 61 then
    let (c, start) := shaStart blk
    let (c', blocks) := shaUpdate c msg
    some (start ++ blocks ++ shaFinal c')
  else none

/-- The function sha256 as a host computes it with the THC: the state at the end and the string it returns, the bytes of the
words its reads got (spec/45_host_protocol.md R500, R505), under the schedule of hostTurns. -/
def sha256 (blk : Vector Byte 64) (msg : List Byte) (s : State) : Option (State × List Byte) :=
  match sha256Turns blk msg with
  | none => none
  | some ts => (hostTurns ts s).map fun r => (r.1, hexString r.2)

/-! ## Keccak-256 -/

/-- The host's Keccak-256 context (spec/45_host_protocol.md R501): fill is at most 135 between transforms. -/
structure KecContext where
  fill : Fin 136
  blk : Vector Byte 136
  deriving DecidableEq, Repr

/-- keccak256 init: the context, blk left as it is, and the turns (spec/45_host_protocol.md R510). -/
def kecStart (blk : Vector Byte 136) : KecContext × List Turn :=
  (⟨0, blk⟩, run .kecInit)

/-- keccak256 update by one byte (spec/45_host_protocol.md R511). -/
def kecUpdateByte (c : KecContext) (b : Byte) : KecContext × List Turn :=
  let blk := c.blk.set c.fill b
  if hf : c.fill.val + 1 < 136 then (⟨⟨c.fill.val + 1, hf⟩, blk⟩, [])
  else (⟨0, blk⟩, ldbuf blk.toList ++ run .kecAbsorb)

/-- keccak256 update: the bytes one at a time (spec/45_host_protocol.md R511). -/
def kecUpdate (c : KecContext) : List Byte → KecContext × List Turn
  | [] => (c, [])
  | b :: rest =>
    let (c', ts) := kecUpdateByte c b
    let (c'', ts') := kecUpdate c' rest
    (c'', ts ++ ts')

/-- The padded last block: 0x01 at the first unused byte, 0x80 in byte 135, both where they meet
(spec/45_host_protocol.md R512). -/
def kecLastBlock (blk : Vector Byte 136) (fill : Fin 136) : Vector Byte 136 :=
  let zeroed := zeroBytes blk fill.val 136
  let started := zeroed.set fill (zeroed[fill] ||| 0x01)
  started.set 135 (started[135] ||| 0x80)

/-- keccak256 finalize: one transform, then the digest and its hex string (spec/45_host_protocol.md R512). -/
def kecFinal (c : KecContext) : List Turn :=
  ldbuf (kecLastBlock c.blk c.fill).toList ++ run .kecAbsorb ++ run .digKec ++ run .hexEnc ++ rdhex

/-- The whole keccak256 procedure (spec/45_host_protocol.md R510 to R512). -/
def keccak256Turns (blk : Vector Byte 136) (msg : List Byte) : List Turn :=
  let (c, start) := kecStart blk
  let (c', blocks) := kecUpdate c msg
  start ++ blocks ++ kecFinal c'

/-- The function keccak256 as a host computes it with the THC: the state at the end and the string it returns
(spec/45_host_protocol.md R500, R512), under the schedule of hostTurns. -/
def keccak256 (blk : Vector Byte 136) (msg : List Byte) (s : State) : Option (State × List Byte) :=
  (hostTurns (keccak256Turns blk msg) s).map fun r => (r.1, hexString r.2)

end Sys2Proof.Machine
end

