-- ==== Sys2Proof/Machine/Message.lean ====
section
/-! DEFINITION. The digests of whole messages as functions of the message alone, with no machine and no host: the padded
message in blocks, folded over the compression or the permutation. They are what the host procedures return
(spec/45_host_protocol.md R517). -/

namespace Sys2Proof.Machine

/-- Block number j of a byte sequence cut into blocks of n bytes. -/
def blockOf (n : Nat) (p : List Byte) (j : Nat) : Vector Byte n :=
  Vector.ofFn fun i => p.getD (n * j + i.val) 0

/-! ## SHA-256 -/

/-- The message, the byte 0x80, zeros up to byte 56 of a block, and the bit length in eight bytes, big-endian
(spec/45_host_protocol.md R504). -/
def shaPadded (msg : List Byte) : List Byte :=
  msg ++ [0x80] ++ List.replicate ((119 - msg.length % 64) % 64) 0x00 ++
    (List.range 8).map fun k => byteAt (BitVec.ofNat 64 (8 * msg.length)) (7 - k)

/-- The sixteen big-endian words of a block of 64 bytes (spec/41_sha256.md R205). -/
def shaWords (b : Vector Byte 64) : Vector Word 16 :=
  Vector.ofFn fun t => be32 b[4 * t.val] b[4 * t.val + 1] b[4 * t.val + 2] b[4 * t.val + 3]

/-- The SHA-256 state after the first j blocks of a padded message (spec/41_sha256.md R208, R210). -/
def shaChain (p : List Byte) : Nat → Vector Word 8
  | 0 => ivRom
  | j + 1 => compress (shaChain p j) (shaWords (blockOf 64 p j))

/-- The SHA-256 digest of a message (spec/00_scope.md R3, spec/45_host_protocol.md R505). -/
def sha256Digest (msg : List Byte) : Vector Byte 32 :=
  serializeH (shaChain (shaPadded msg) ((shaPadded msg).length / 64))

/-! ## Keccak-256 -/

/-- The message, padded to whole blocks of 136 bytes: 0x01 first and 0x80 last, in one byte 0x81 where one byte is left
(spec/45_host_protocol.md R512). -/
def kecPadded (msg : List Byte) : List Byte :=
  msg ++
    if msg.length % 136 = 135 then [0x81]
    else [0x01] ++ List.replicate (134 - msg.length % 136) 0x00 ++ [0x80]

/-- The sponge state after the first j blocks of a padded message (spec/42_keccak.md R310, R312). -/
def kecChain (p : List Byte) : Nat → Vector Lane 25
  | 0 => Vector.replicate 25 0
  | j + 1 => keccakF (xorRate (kecChain p j) (blockOf 136 p j))

/-- The Keccak-256 digest of a message (spec/00_scope.md R3, spec/45_host_protocol.md R512). -/
def keccak256Digest (msg : List Byte) : Vector Byte 32 :=
  serializeA (kecChain (kecPadded msg) ((kecPadded msg).length / 136))

end Sys2Proof.Machine
end

