-- ==== Sys2Proof/Safety.lean ====
section
/-! DEFINITION. What counts as a safe run: the invariant of the control and sequencing state, and a step that goes on. -/

namespace Sys2Proof

open Machine

/-- The invariant that every step keeps: PEND, STEP, T and IR agree about the micro-step in progress
(spec/10_state.md R36, R37, R39; spec/41_sha256.md R212; spec/42_keccak.md R313), and the STATUS fields agree with PEND and
with one another (spec/10_state.md R26, R28, R29; spec/60_exceptions.md R600). -/
structure Inv (s : State) : Prop where
  /-- A pending command has micro-steps, and STEP names one of them (R36, R155, R156). -/
  pending_step : ∀ i, s.pend = some i → i ≠ .softReset ∧ s.stepCtr.toNat < lat i
  /-- DONE is 0 and LASTOP is the opcode while a command is pending (R26, R29). -/
  pending_status : ∀ i, s.pend = some i → s.done = false ∧ s.lastop = i.opcode
  /-- STEP is 0 while no command is pending (R36). -/
  idle_step : s.pend = none → s.stepCtr = 0
  /-- SHA_COMPRESS micro-step n ≥ 1 finds T = n - 1 (R212). -/
  sha_counter : s.pend = some .shaCompress → 1 ≤ s.stepCtr.toNat → s.t.toNat + 1 = s.stepCtr.toNat
  /-- KEC_PERMUTE micro-step n ≥ 1 finds IR = n (R313). -/
  permute_index : s.pend = some .kecPermute → 1 ≤ s.stepCtr.toNat → s.ir.toNat = s.stepCtr.toNat
  /-- KEC_ABSORB micro-step n ≥ 1 finds IR = n - 1 (R313). -/
  absorb_index : s.pend = some .kecAbsorb → 1 ≤ s.stepCtr.toNat → s.ir.toNat + 1 = s.stepCtr.toNat
  /-- ERRCODE is 0x00 exactly while ERR = 0 (R28). -/
  err_code : s.err = false ↔ s.errcode = 0
  /-- ERRCODE ranges over 0x00 to 0x06 (R600). -/
  code_range : s.errcode.toNat ≤ 6

/-- A state from which the machine goes on: neither a fault nor a refusal. -/
def StepsOn (s : State) : Prop :=
  ∃ t, step s = .next t

end Sys2Proof
end

