-- ==== Sys2Proof/Certificates/Slice0/Obligations.lean ====
section
/-! DEFINITION. The statements for the provers: what the rules of the spec say the THC does. -/

open Sys2Proof Sys2Proof.Machine

namespace Sys2Proof.Stated

/-! ## Words the statements use -/

/-- The state after an error was recorded: the first code is kept, nothing else changes (spec/60_exceptions.md R603). -/
def afterError (code : Byte) (s : State) : State :=
  { s with err := true, errcode := if s.err then s.errcode else code }

/-- An access the THC implements: 4 bytes at a multiple of 4 (spec/20_memory.md R61). -/
def IsWord (off : Offset) (size : Size) : Prop :=
  size = .four ∧ off.toNat % 4 = 0

/-- A byte offset that the register map does not list (spec/20_memory.md R62). -/
def IsUnmapped (n : Nat) : Prop :=
  (0x00C ≤ n ∧ n < 0x040) ∨ (0x060 ≤ n ∧ n < 0x080) ∨ (0x108 ≤ n ∧ n < 0x200) ∨ (0x2C8 ≤ n ∧ n < 0x300) ∨
    (0x320 ≤ n ∧ n < 0x340) ∨ 0x380 ≤ n

/-- A byte offset of a data register that the host can write: H, BUFW, AW or DW (spec/20_memory.md R62). -/
def IsWritableData (n : Nat) : Prop :=
  (0x040 ≤ n ∧ n < 0x060) ∨ (0x080 ≤ n ∧ n < 0x108) ∨ (0x200 ≤ n ∧ n < 0x2C8) ∨ (0x300 ≤ n ∧ n < 0x320)

/-- A byte offset of HEX (spec/20_memory.md R62). -/
def IsHex (n : Nat) : Prop :=
  0x340 ≤ n ∧ n < 0x380

/-- The offset of word n of an array that starts at base. -/
def at4 (base n : Nat) : Offset :=
  BitVec.ofNat 10 (base + 4 * n)

/-- The hidden registers UNSPEC, as they are outside a command that writes them (spec/93_implementation_defined.md I13,
spec/10_state.md R37, R39): the draw of the current draw number, the model's choice of form, notes/assumptions/2.md and 6.md. -/
def hiddenDrawn (s : State) : State :=
  { s with
    ws := drawnWS s.draws
    v := drawnV s.draws
    t := Config.drawT s.draws
    ir := Config.drawIR s.draws
    draws := s.draws + 1 }

/-- The state that the acceptance of command i with opcode opc leaves (spec/40_command_core.md R150): PEND = i, STEP = 0,
DONE = 0, LASTOP = opc. The hidden registers, which no micro-step of it has written yet, are drawn: the model's choice,
notes/assumptions/6.md. -/
def afterAcceptance (i : Instr) (opc : Byte) (s : State) : State :=
  { hiddenDrawn s with pend := some i, stepCtr := 0, done := false, lastop := opc }

/-- The state that a completion leaves: idle, STEP = 0, DONE = 1 (spec/40_command_core.md R155). The hidden registers, outside
every command from here on, are drawn: the model's choice, notes/assumptions/6.md. -/
def afterCommand (s : State) : State :=
  { hiddenDrawn s with pend := none, stepCtr := 0, done := true }

/-- What every command but SOFT_RESET does: its word is the only word that decodes to it; written to CMD while idle it is
accepted; run to completion it leaves the effect with BUSY = 0, DONE = 1, STEP = 0 and LASTOP = OPC, the hidden registers drawn
(the model's choice of form, notes/assumptions/6.md), and nothing else; written while busy it records BUSY_CMD and nothing
else (spec/40_command_core.md R150, R155). -/
def CommandRule (i : Instr) (word : Word) (opc : Byte) (effect : State → State) : Prop :=
  encode i = word ∧ (∀ c, decode c = .ok i ↔ c = word) ∧
  (∀ s : State, s.pend = none → transact (.write 0x004 .four word) s = afterAcceptance i opc s) ∧
  (∀ s : State, s.pend = none → exec i s = .next (afterCommand (effect (afterAcceptance i opc s)))) ∧
  (∀ s : State, s.pend ≠ none →
    exec i s = .next (afterError 0x02 s) ∧ transact (.write 0x004 .four word) s = afterError 0x02 s)

/-- A command of one micro-step: pending at STEP = 0 it has its effect and completes in one engine step
(spec/40_command_core.md R155, R156). -/
def OneMicroStep (i : Instr) (effect : State → State) : Prop :=
  ∀ s : State, s.pend = some i → s.stepCtr = 0 → engineStep s = .next (afterCommand (effect s))

/-- The number of micro-steps of the table of spec/40_command_core.md R156. -/
def latTable : Instr → Nat
  | .nop => 1
  | .shaInit => 1
  | .shaCompress => 66
  | .kecInit => 1
  | .kecPermute => 24
  | .kecAbsorb => 25
  | .digSha => 1
  | .digKec => 1
  | .hexEnc => 1
  | .bufClear => 1
  | .softReset => 0

/-- The bytes of the window whose register a command writes, from lo to hi-1 (spec/10_state.md R41, spec/20_memory.md R62). -/
def writtenRange : Instr → Nat × Nat
  | .nop => (0, 0)
  | .shaInit => (0x040, 0x060)
  | .shaCompress => (0x040, 0x060)
  | .kecInit => (0x200, 0x2C8)
  | .kecPermute => (0x200, 0x2C8)
  | .kecAbsorb => (0x200, 0x2C8)
  | .digSha => (0x300, 0x320)
  | .digKec => (0x300, 0x320)
  | .hexEnc => (0x340, 0x380)
  | .bufClear => (0x080, 0x108)
  | .softReset => (0, 0x400)

/-- A turn that cannot cut a pending command off: an engine turn, or a host access that is not SOFT_RESET. -/
def CannotReset : Turn → Prop
  | .bus (.read _ _) => True
  | .bus (.write off size v) => ¬(off = 0x004 ∧ size = .four ∧ v = 0x000000FF)
  | .engine => True
  | .wait => False
  | .reset => False
  | .command c => c ≠ 0x000000FF

/-- The data registers of two states are the same (spec/10_state.md R30 to R34). -/
def SameData (s t : State) : Prop :=
  s.h = t.h ∧ s.buf = t.buf ∧ s.a = t.a ∧ s.digest = t.digest ∧ s.hex = t.hex

/-- The window of the schedule after all 64 rounds: words W[64] to W[79] (spec/41_sha256.md R207). -/
def finalWindow (m : Vector Word 16) : Vector Word 16 :=
  Vector.ofFn fun j => (schedule m 64)[64 + j.val]

/-- The Keccak LFSR x^8 + x^6 + x^5 + x^4 + 1 after t steps from 1 (spec/42_keccak.md R307). That a step multiplies by x and
reduces by the polynomial, and that the output bit is bit 0, is the model's reading of R307, notes/assumptions/15.md. -/
def lfsr : Nat → BitVec 9
  | 0 => 1
  | t + 1 =>
    let r := lfsr t <<< 1
    if r.getLsbD 8 then r ^^^ 0x171 else r

/-- The rotation amounts by their definition: position (x, y) and t = 0..23, as (lane, amount) (spec/42_keccak.md R303). -/
def rhoWalk : (n : Nat) → (t x y : Nat) → List (Nat × Nat)
  | 0, _, _, _ => []
  | n + 1, t, x, y => (x + 5 * y, ((t + 1) * (t + 2) / 2) % 64) :: rhoWalk n (t + 1) y ((2 * x + 3 * y) % 5)

end Sys2Proof.Stated

open Sys2Proof.Stated

/-! ## Encoding -/

/-- R104: a word is legal exactly when RSV = 0 and OPC is one of the eleven values, and Decode is the opcode map. -/
def Obligations.DecodeAcceptsExactlyTheLegalWords : Prop :=
  (∀ c : Word, (∃ i, decode c = .ok i) ↔
    (c.extractLsb' 8 24 = 0 ∧ c.extractLsb' 0 8 ∈
      ([0x00, 0x01, 0x02, 0x10, 0x11, 0x12, 0x20, 0x21, 0x22, 0x30, 0xFF] : List Byte))) ∧
  decode 0x00000000 = .ok .nop ∧ decode 0x00000001 = .ok .shaInit ∧ decode 0x00000002 = .ok .shaCompress ∧
  decode 0x00000010 = .ok .kecInit ∧ decode 0x00000011 = .ok .kecPermute ∧ decode 0x00000012 = .ok .kecAbsorb ∧
  decode 0x00000020 = .ok .digSha ∧ decode 0x00000021 = .ok .digKec ∧ decode 0x00000022 = .ok .hexEnc ∧
  decode 0x00000030 = .ok .bufClear ∧ decode 0x000000FF = .ok .softReset

/-- Decode and encode agree in both directions: every command survives, and each word has one meaning (R103, R104). -/
def Obligations.DecodeAndEncodeAgree : Prop :=
  (∀ i : Instr, i.wf = true → decode (encode i) = .ok i) ∧
  (∀ (c : Word) (i : Instr), decode c = .ok i → encode i = c) ∧
  (∀ i : Instr, decodeTableWord 32 (encode i).toNat = some i)

/-- R109: the worked encoding examples. -/
def Obligations.WorkedEncodingExamples : Prop :=
  cmd .shaCompress = .bus (.write 0x004 .four 0x00000002) ∧
  cmd .softReset = .bus (.write 0x004 .four 0x000000FF) ∧
  decode 0x00000102 = .error .reservedNotZero ∧ decode 0x00000003 = .error .opcodeUnassigned ∧
  ldlane 3 0x0123456789ABCDEF = [.bus (.write 0x218 .four 0x89ABCDEF), .bus (.write 0x21C .four 0x01234567)]

/-- R105: an illegal word records ILLEGAL_CMD while idle and BUSY_CMD while busy, and changes nothing else; so it does
whether it is written as one transaction or as a whole command. -/
def Obligations.IllegalWordsAreRejected : Prop :=
  ∀ (c : Word) (e : Illegal) (s : State) (rest : List Turn), decode c = .error e →
    (s.pend = none →
      step { s with turns := .bus (.write 0x004 .four c) :: rest } = .next (afterError 0x01 { s with turns := rest }) ∧
      step { s with turns := .command c :: rest } = .next (afterError 0x01 { s with turns := rest })) ∧
    (s.pend ≠ none →
      step { s with turns := .bus (.write 0x004 .four c) :: rest } = .next (afterError 0x02 { s with turns := rest }) ∧
      step { s with turns := .command c :: rest } = .next (afterError 0x02 { s with turns := rest }))

/-! ## Steps -/

/-- The next command of the turns, decoded, is what a step executes; and so does the step after a word is placed for it. -/
def Obligations.StepRunsTheDecodedCommand : Prop :=
  (∀ (c : Word) (i : Instr) (s : State) (rest : List Turn), decode c = .ok i → i.wf = true →
    step { s with turns := .command c :: rest } = exec i { s with turns := rest }) ∧
  (∀ (i : Instr) (s : State), i.wf = true → step (s.withFetchWord 32 (encode i).toNat) = exec i s)

/-- One agent moves in one step (R21, R75): a bus turn is one whole transaction, an engine turn one engine step; with no turn
left only the engine moves, and an idle machine stays as it is (R152). -/
def Obligations.OneAgentMovesInOneStep : Prop :=
  (∀ (s : State) (t : Transaction) (rest : List Turn),
    step { s with turns := .bus t :: rest } = .next (transact t { s with turns := rest })) ∧
  (∀ (s : State) (rest : List Turn),
    step { s with turns := .engine :: rest } = engineStep { s with turns := rest }) ∧
  (∀ s : State, s.turns = [] → step s = engineStep s) ∧
  (∀ s : State, s.pend = none → engineStep s = .next s)

/-- R108: wait reads STATUS; at BUSY = 0 it is over, at BUSY = 1 it polls again after the engine had a turn (the
engine's turn between two polls is the model's choice of schedule, notes/assumptions/3.md). -/
def Obligations.WaitPollsUntilIdle : Prop :=
  ∀ (s : State) (rest : List Turn),
    (s.pend = none → step { s with turns := .wait :: rest } =
      .next { s with turns := rest, rdata := some (statusWord s) }) ∧
    (s.pend ≠ none → step { s with turns := .wait :: rest } =
      .next { s with turns := .engine :: .wait :: rest, rdata := some (statusWord s) })

/-! ## Acceptance, micro-steps, completion -/

/-- R150: CommandWrite tests SOFT_RESET first, then BUSY, then Decode; acceptance sets PEND, STEP, BUSY, DONE, LASTOP. The draw
of the hidden registers at acceptance is the model's choice of form for what is UNSPEC then, notes/assumptions/6.md. -/
def Obligations.CommandWriteFollowsItsTests : Prop :=
  ∀ (c : Word) (s : State),
    (c = 0x000000FF → transact (.write 0x004 .four c) s = resetState s) ∧
    (c ≠ 0x000000FF → s.pend ≠ none → transact (.write 0x004 .four c) s = afterError 0x02 s) ∧
    (∀ e, decode c = .error e → s.pend = none → transact (.write 0x004 .four c) s = afterError 0x01 s) ∧
    (∀ i, decode c = .ok i → i ≠ .softReset → s.pend = none →
      transact (.write 0x004 .four c) s = afterAcceptance i (c.extractLsb' 0 8) s ∧
      (transact (.write 0x004 .four c) s).busy = true)

/-- R155: an engine step performs micro-step STEP of the pending command; the last one completes it, another counts on. The
draw at completion is the model's choice of form for the hidden registers, UNSPEC from then on, notes/assumptions/6.md. -/
def Obligations.EngineStepSequencesMicroSteps : Prop :=
  (∀ s : State, s.pend = none → engineStep s = .next s) ∧
  ∀ (s u : State) (i : Instr), s.pend = some i → s.stepCtr.toNat < latTable i →
    microStep i s.stepCtr.toNat s = .next u →
    (s.stepCtr.toNat + 1 = latTable i → engineStep s = .next (afterCommand u)) ∧
    (s.stepCtr.toNat + 1 ≠ latTable i →
      engineStep s = .next { u with pend := some i, stepCtr := s.stepCtr + 1 })

/-- R158: an accepted command is pending for fewer than LAT(op) engine steps and complete after exactly LAT(op). -/
def Obligations.CommandCompletesAfterExactlyLatSteps : Prop :=
  ∀ (i : Instr) (s : State), i ≠ .softReset → s.pend = none → s.turns = [] →
    (∀ k < latTable i, ∃ u, Host.Core.run core k (accept i s) = .next u ∧ u.pend = some i) ∧
    ∃ t, Host.Core.run core (latTable i) (accept i s) = .next t ∧ t.pend = none ∧ t.done = true

/-- R157: a command run whole is the composition of its acceptance and its LAT(op) micro-steps, in every state while idle. -/
def Obligations.CollapsedCommandIsItsMicroSteps : Prop :=
  ∀ (i : Instr) (s : State) (rest : List Turn), i ≠ .softReset → s.pend = none →
    step { s with turns := .command (encode i) :: rest } = exec i { s with turns := rest } ∧
    Host.Core.run core (1 + latTable i)
      { s with turns := .bus (.write 0x004 .four (encode i)) :: (List.replicate (latTable i) .engine ++ rest) } =
        exec i { s with turns := rest }

/-- R153 and R154: whatever the host does while a command runs, short of a reset, its result is a function of the data
registers' values at acceptance: from two idle states with the same data registers, the interleaved run from one and the
whole run from the other leave the same data registers, idle, DONE = 1, the same LASTOP (a wait, whose schedule is the model's
choice, notes/assumptions/3.md, is not among the turns). -/
def Obligations.HostAccessesCannotDisturbACommand : Prop :=
  ∀ (i : Instr) (s s' : State) (ts : List Turn), i ≠ .softReset → s.pend = none → s'.pend = none → SameData s s' →
    (∀ t ∈ ts, CannotReset t) → ts.countP (fun t => t == .engine) + 1 = latTable i →
    ∃ t u, exec i s' = .next t ∧
      Host.Core.run core (ts.length + 1) { accept i s with turns := ts ++ [.engine] } = .next u ∧
      SameData u t ∧ u.pend = none ∧ u.stepCtr = 0 ∧ u.done = true ∧ u.lastop = t.lastop ∧ u.turns = []

/-- The micro-steps that are left: a pending command in a state of the invariant completes after LAT(op) - STEP engine
steps, and not before (R156, R158). -/
def Obligations.PendingCommandAlwaysCompletes : Prop :=
  ∀ (s : State) (i : Instr), Inv s → s.pend = some i → s.turns = [] →
    (∀ k < latTable i - s.stepCtr.toNat, ∃ u, Host.Core.run core k s = .next u ∧ u.pend = some i) ∧
    ∃ t, Host.Core.run core (latTable i - s.stepCtr.toNat) s = .next t ∧ t.pend = none ∧ t.done = true

/-! ## The commands -/

/-- R160: NOP changes no register but STATUS. WS, V, T and IR, UNSPEC outside a
command that writes them (I13), are drawn at acceptance and at completion: the model's choice, notes/assumptions/6.md. -/
def Obligations.NopOnlyCompletes : Prop :=
  CommandRule .nop 0x00000000 0x00 (fun s => s) ∧ OneMicroStep .nop (fun s => s) ∧
  (∀ s t : State, statusWord s = 0x00000000 → exec .nop s = .next t → statusWord t = 0x00000002)

/-- R161: BUF_CLEAR writes all 136 bytes of BUF with 0. WS, V, T and IR, UNSPEC outside a
command that writes them (I13), are drawn at acceptance and at completion: the model's choice, notes/assumptions/6.md. -/
def Obligations.BufClearZeroesTheBuffer : Prop :=
  CommandRule .bufClear 0x00000030 0x30 (fun s => { s with buf := Vector.replicate 136 0 }) ∧
  OneMicroStep .bufClear (fun s => { s with buf := Vector.replicate 136 0 }) ∧
  (∀ (s t : State) (k : Fin 34), s.pend = none → exec .bufClear s = .next t → busValue (at4 0x080 k) .four t = 0x00000000)

/-- R162: SOFT_RESET is accepted busy or idle, leaves the control state at reset values, and sets no DONE. The data and
datapath registers are a fresh draw each (spec/70_reset_and_hazards.md R701). -/
def Obligations.SoftResetResetsBusyOrIdle : Prop :=
  encode .softReset = 0x000000FF ∧ (∀ c, decode c = .ok .softReset ↔ c = 0x000000FF) ∧
  ∀ s : State, ∃ t, exec .softReset s = .next t ∧ transact (.write 0x004 .four 0x000000FF) s = t ∧
    t.pend = none ∧ t.stepCtr = 0 ∧ t.done = false ∧ t.err = false ∧ t.errcode = 0x00 ∧ t.lastop = 0x00 ∧
    statusWord t = 0x00000000 ∧ t.turns = s.turns ∧
    (∀ i : Fin 8, t.h[i] = Config.resetH s.draws i) ∧ (∀ j : Fin 136, t.buf[j] = Config.resetBuf s.draws j) ∧
    (∀ i : Fin 25, t.a[i] = Config.resetA s.draws i) ∧ (∀ j : Fin 32, t.digest[j] = Config.resetDigest s.draws j) ∧
    (∀ n : Fin 64, t.hex[n] = Config.resetHex s.draws n) ∧ (∀ j : Fin 16, t.ws[j] = Config.drawWS s.draws j) ∧
    (∀ i : Fin 8, t.v[i] = Config.drawV s.draws i) ∧ t.t = Config.drawT s.draws ∧ t.ir = Config.drawIR s.draws ∧
    t.draws = s.draws + 1

/-- R210: SHA_INIT loads the IV into H. WS, V, T and IR, UNSPEC outside a
command that writes them (I13), are drawn at acceptance and at completion: the model's choice, notes/assumptions/6.md. -/
def Obligations.ShaInitLoadsTheIv : Prop :=
  CommandRule .shaInit 0x00000001 0x01 (fun s => { s with h :=
    #v[0x6a09e667, 0xbb67ae85, 0x3c6ef372, 0xa54ff53a, 0x510e527f, 0x9b05688c, 0x1f83d9ab, 0x5be0cd19] }) ∧
  OneMicroStep .shaInit (fun s => { s with h :=
    #v[0x6a09e667, 0xbb67ae85, 0x3c6ef372, 0xa54ff53a, 0x510e527f, 0x9b05688c, 0x1f83d9ab, 0x5be0cd19] }) ∧
  (∀ s t : State, s.pend = none → exec .shaInit s = .next t →
    busValue (at4 0x040 0) .four t = 0x6a09e667 ∧ busValue (at4 0x040 7) .four t = 0x5be0cd19)

/-- R211: SHA_COMPRESS is a load, 64 rounds with K addressed by T, and a feed-forward; run whole it sets H to
Compress(H, M) over the big-endian words of BUF[0..63]; before the feed-forward T = 64, V holds the working variables after
round 63 and WS the words W[64] to W[79]; and so for the block of "abc". WS, V, T and IR, UNSPEC outside a command that writes
them (I13), are drawn at acceptance and at completion: the model's choice, notes/assumptions/6.md. -/
def Obligations.ShaCompressComputesTheCompression : Prop :=
  CommandRule .shaCompress 0x00000002 0x02 (fun s => { s with h := compress s.h (blockWords s.buf) }) ∧
  (∀ s : State, s.pend = some .shaCompress → s.stepCtr = 0 →
    engineStep s = .next { s with ws := blockWords s.buf, v := s.h, t := 0, stepCtr := 1 }) ∧
  (∀ s : State, s.pend = some .shaCompress → 1 ≤ s.stepCtr.toNat → s.stepCtr.toNat ≤ 64 → (ht : s.t.toNat < 64) →
    engineStep s = .next { s with
      v := shaRound s.v kRom[s.t.toNat] s.ws[0], ws := scheduleShift s.ws, t := s.t + 1, stepCtr := s.stepCtr + 1 }) ∧
  (∀ s : State, s.pend = some .shaCompress → s.stepCtr = 0 → s.turns = [] →
    Host.Core.run core 65 s = .next { s with
      ws := finalWindow (blockWords s.buf)
      v := shaRounds (schedule (blockWords s.buf) 48) s.h 64 (by omega)
      t := 64
      stepCtr := 65 }) ∧
  (∀ s : State, s.pend = some .shaCompress → s.stepCtr = 65 →
    engineStep s = .next (afterCommand { s with h := Vector.ofFn (fun i => s.h[i] + s.v[i]) })) ∧
  compress ivRom #v[0x61626380, 0, 0, 0, 0, 0, 0, 0, 0, 0, 0, 0, 0, 0, 0, 0x00000018] =
    #v[0xba7816bf, 0x8f01cfea, 0x414140de, 0x5dae2223, 0xb00361a3, 0x96177a9c, 0xb410ff61, 0xf20015ad]

/-- R310: KEC_INIT writes all 25 lanes with 0. WS, V, T and IR, UNSPEC outside a
command that writes them (I13), are drawn at acceptance and at completion: the model's choice, notes/assumptions/6.md. -/
def Obligations.KecInitZeroesTheState : Prop :=
  CommandRule .kecInit 0x00000010 0x10 (fun s => { s with a := Vector.replicate 25 0 }) ∧
  OneMicroStep .kecInit (fun s => { s with a := Vector.replicate 25 0 }) ∧
  (∀ (s t : State) (k : Fin 50), s.pend = none → exec .kecInit s = .next t → busValue (at4 0x200 k) .four t = 0x00000000)

/-- R311: KEC_PERMUTE is 24 rounds with RC addressed by IR, which reaches 24 in micro-step 23; run whole it sets A to
KeccakF(A). WS, V, T and IR, UNSPEC outside a command that writes them (I13), are drawn at acceptance and at completion: the
model's choice, notes/assumptions/6.md. -/
def Obligations.KecPermuteComputesThePermutation : Prop :=
  CommandRule .kecPermute 0x00000011 0x11 (fun s => { s with a := keccakF s.a }) ∧
  (∀ s : State, s.pend = some .kecPermute → s.stepCtr = 0 →
    engineStep s = .next { s with a := kRound s.a rcRom[0], ir := 1, stepCtr := 1 }) ∧
  (∀ s : State, s.pend = some .kecPermute → 1 ≤ s.stepCtr.toNat → s.stepCtr.toNat ≤ 22 → (hr : s.ir.toNat < 24) →
    engineStep s = .next { s with a := kRound s.a rcRom[s.ir.toNat], ir := s.ir + 1, stepCtr := s.stepCtr + 1 }) ∧
  (∀ s : State, s.ir = 23 → microStep .kecPermute 23 s = .next { s with a := kRound s.a rcRom[23], ir := 24 }) ∧
  (∀ s : State, s.pend = some .kecPermute → s.stepCtr = 23 → (hr : s.ir.toNat < 24) →
    engineStep s = .next (afterCommand { s with a := kRound s.a rcRom[s.ir.toNat] })) ∧
  (keccakF (Vector.replicate 25 0))[0] = 0xF1258F7940E1DDE7 ∧ (keccakF (Vector.replicate 25 0))[1] = 0x84D5CCF933C0478A

/-- R312: KEC_ABSORB XORs the little-endian rate block into lanes 0 to 16 and then does 24 rounds with RC addressed by IR, which
reaches 24 in micro-step 24; run whole it sets A to KeccakF(A ^ P). WS, V, T and IR, UNSPEC outside a command that writes them
(I13), are drawn at acceptance and at completion: the model's choice, notes/assumptions/6.md. -/
def Obligations.KecAbsorbComputesTheAbsorb : Prop :=
  CommandRule .kecAbsorb 0x00000012 0x12 (fun s => { s with a := keccakF (xorRate s.a s.buf) }) ∧
  (∀ (a : Vector Lane 25) (b : Vector Byte 136) (i : Fin 25),
    (∀ hi : i.val < 17, (xorRate a b)[i] = a[i] ^^^ rateLane b ⟨i.val, hi⟩) ∧ (17 ≤ i.val → (xorRate a b)[i] = a[i])) ∧
  (∀ s : State, s.pend = some .kecAbsorb → s.stepCtr = 0 →
    engineStep s = .next { s with a := xorRate s.a s.buf, ir := 0, stepCtr := 1 }) ∧
  (∀ s : State, s.pend = some .kecAbsorb → 1 ≤ s.stepCtr.toNat → s.stepCtr.toNat ≤ 23 → (hr : s.ir.toNat < 24) →
    engineStep s = .next { s with a := kRound s.a rcRom[s.ir.toNat], ir := s.ir + 1, stepCtr := s.stepCtr + 1 }) ∧
  (∀ s : State, s.ir = 23 → microStep .kecAbsorb 24 s = .next { s with a := kRound s.a rcRom[23], ir := 24 }) ∧
  (∀ s : State, s.pend = some .kecAbsorb → s.stepCtr = 24 → (hr : s.ir.toNat < 24) →
    engineStep s = .next (afterCommand { s with a := kRound s.a rcRom[s.ir.toNat] })) ∧
  (keccakF (xorRate (Vector.replicate 25 0) (((Vector.replicate 136 0).set 0 0x01).set 135 0x80))).toList.take 4 =
    [0x3C23F7860146D2C5, 0xC003C7DCB27D7E92, 0x3B2782CA53B600E5, 0x70A4855D04D8FA7B]

/-- R403: DIG_SHA writes DIGEST[4i+k] with H[i][31-8k : 24-8k]. WS, V, T and IR, UNSPEC outside a
command that writes them (I13), are drawn at acceptance and at completion: the model's choice, notes/assumptions/6.md. -/
def Obligations.DigShaSerializesBigEndian : Prop :=
  CommandRule .digSha 0x00000020 0x20 (fun s =>
    { s with digest := Vector.ofFn (fun j => (s.h[j.val / 4]).extractLsb' (24 - 8 * (j.val % 4)) 8) }) ∧
  OneMicroStep .digSha (fun s =>
    { s with digest := Vector.ofFn (fun j => (s.h[j.val / 4]).extractLsb' (24 - 8 * (j.val % 4)) 8) }) ∧
  (∀ s t : State, s.pend = none → s.h[0] = 0xba7816bf → exec .digSha s = .next t →
    t.digest.toList.take 4 = [0xba, 0x78, 0x16, 0xbf] ∧ busValue (at4 0x300 0) .four t = 0xbf1678ba)

/-- R404: DIG_KEC writes DIGEST[8i+k] with A[i][8k+7 : 8k], i = 0..3. WS, V, T and IR, UNSPEC outside a
command that writes them (I13), are drawn at acceptance and at completion: the model's choice, notes/assumptions/6.md. -/
def Obligations.DigKecSerializesLittleEndian : Prop :=
  CommandRule .digKec 0x00000021 0x21 (fun s =>
    { s with digest := Vector.ofFn (fun j => (s.a[j.val / 8]).extractLsb' (8 * (j.val % 8)) 8) }) ∧
  OneMicroStep .digKec (fun s =>
    { s with digest := Vector.ofFn (fun j => (s.a[j.val / 8]).extractLsb' (8 * (j.val % 8)) 8) }) ∧
  (∀ s t : State, s.pend = none → s.a[0] = 0x3C23F7860146D2C5 → exec .digKec s = .next t →
    t.digest.toList.take 8 = [0xc5, 0xd2, 0x46, 0x01, 0x86, 0xf7, 0x23, 0x3c] ∧
    busValue (at4 0x300 0) .four t = 0x0146D2C5)

/-- R405, R401 and R400: HEX_ENC writes HEX[2j] with HexChar of the high nibble of DIGEST[j] and HEX[2j+1] with that of the
low one, and HexChar is '0' to '9' and 'a' to 'f'. WS, V, T and IR, UNSPEC outside a command that writes them (I13), are
drawn at acceptance and at completion: the model's choice, notes/assumptions/6.md. -/
def Obligations.HexEncEncodesDigest : Prop :=
  CommandRule .hexEnc 0x00000022 0x22 (fun s => { s with hex := hexEncode s.digest }) ∧
  OneMicroStep .hexEnc (fun s => { s with hex := hexEncode s.digest }) ∧
  (∀ (d : Vector Byte 32) (j : Fin 32),
    (hexEncode d)[2 * j.val] = hexChar (d[j].extractLsb' 4 4) ∧
    (hexEncode d)[2 * j.val + 1] = hexChar (d[j].extractLsb' 0 4)) ∧
  (∀ v : BitVec 4, (hexChar v).toNat = if v.toNat ≤ 9 then 0x30 + v.toNat else 0x61 + (v.toNat - 10)) ∧
  (∀ s t : State, s.pend = none → s.digest[0] = 0xba → s.digest[1] = 0x78 → exec .hexEnc s = .next t →
    t.hex.toList.take 4 = [0x62, 0x61, 0x37, 0x38] ∧ busValue (at4 0x340 0) .four t = 0x38376162) ∧
  hexEncode (Vector.replicate 32 0x00) = Vector.replicate 64 0x30 ∧
  hexEncode (Vector.replicate 32 0xFF) = Vector.replicate 64 0x66

/-- R41: no command but SOFT_RESET writes a data register outside its footprint, whether it runs or is turned away, and the
data registers it writes are a function of the registers it reads. After a command that ran, the hidden registers are UNSPEC
(I13): the second of the two draws that a whole command takes, the model's choice, notes/assumptions/2.md and 6.md. -/
def Obligations.CommandsKeepTheirFootprint : Prop :=
  (∀ (i : Instr) (s t : State), i ≠ .softReset → exec i s = .next t →
    (i ∉ [.shaInit, .shaCompress] → t.h = s.h) ∧ (i ≠ .bufClear → t.buf = s.buf) ∧
    (i ∉ [.kecInit, .kecPermute, .kecAbsorb] → t.a = s.a) ∧ (i ∉ [.digSha, .digKec] → t.digest = s.digest) ∧
    (i ≠ .hexEnc → t.hex = s.hex) ∧ t.rdata = s.rdata ∧ t.turns = s.turns ∧
    (s.pend ≠ none → t.ws = s.ws ∧ t.v = s.v ∧ t.t = s.t ∧ t.ir = s.ir ∧ t.draws = s.draws) ∧
    (s.pend = none → t.draws = s.draws + 2 ∧ (∀ j : Fin 16, t.ws[j] = Config.drawWS (s.draws + 1) j) ∧
      (∀ j : Fin 8, t.v[j] = Config.drawV (s.draws + 1) j) ∧ t.t = Config.drawT (s.draws + 1) ∧
      t.ir = Config.drawIR (s.draws + 1))) ∧
  (∀ (i : Instr) (s s' t t' : State), i ≠ .softReset → s.pend = none → s'.pend = none →
    exec i s = .next t → exec i s' = .next t' →
    (i = .shaInit → t.h = t'.h) ∧
    (i = .shaCompress → s.h = s'.h → (∀ j : Fin 64, s.buf[j.val] = s'.buf[j.val]) → t.h = t'.h) ∧
    (i = .kecInit → t.a = t'.a) ∧ (i = .kecPermute → s.a = s'.a → t.a = t'.a) ∧
    (i = .kecAbsorb → s.a = s'.a → s.buf = s'.buf → t.a = t'.a) ∧
    (i = .digSha → s.h = s'.h → t.digest = t'.digest) ∧
    (i = .digKec → (∀ k : Fin 4, s.a[k.val] = s'.a[k.val]) → t.digest = t'.digest) ∧
    (i = .hexEnc → s.digest = s'.digest → t.hex = t'.hex) ∧ (i = .bufClear → t.buf = t'.buf))

/-- What the host reads after a command run while idle, at every offset and width outside the register the command writes and
STATUS, is what it read before (R213, R313, R406 through the window); and so it is for a command turned away while busy, at
every offset that is no data register and not STATUS. -/
def Obligations.WindowIsUnchangedOutsideTheResult : Prop :=
  (∀ (i : Instr) (s t : State) (off : Offset) (size : Size), i ≠ .softReset → s.pend = none → exec i s = .next t →
    ¬((writtenRange i).1 ≤ off.toNat ∧ off.toNat < (writtenRange i).2) → ¬(0x008 ≤ off.toNat ∧ off.toNat < 0x00C) →
    busValue off size t = busValue off size s) ∧
  (∀ (i : Instr) (s t : State) (off : Offset) (size : Size), i ≠ .softReset → s.pend ≠ none → exec i s = .next t →
    off.toNat < 0x008 ∨ IsUnmapped off.toNat → busValue off size t = busValue off size s)

/-- R602: no command stops or raises an error from its data: while idle every command goes on and leaves ERR and ERRCODE
(SOFT_RESET clears both). -/
def Obligations.NoCommandFailsOnItsData : Prop :=
  ∀ (i : Instr) (s : State),
    (∃ t, exec i s = .next t) ∧
    (s.pend = none → ∀ t, exec i s = .next t → i ≠ .softReset → t.err = s.err ∧ t.errcode = s.errcode)

/-! ## SHA-256 -/

/-- R200: Ch chooses bit by bit and Maj is the majority bit by bit. -/
def Obligations.ChoiceAndMajorityAreBitwise : Prop :=
  (∀ x y z : Word, ch x y z = (x &&& y) ^^^ (~~~x &&& z) ∧ maj x y z = (x &&& y) ^^^ (x &&& z) ^^^ (y &&& z)) ∧
  ∀ (x y z : Word) (k : Nat), k < 32 →
    (ch x y z).getLsbD k = (if x.getLsbD k then y.getLsbD k else z.getLsbD k) ∧
    (maj x y z).getLsbD k = decide (2 ≤ (x.getLsbD k).toNat + (y.getLsbD k).toNat + (z.getLsbD k).toNat)

/-- R205: the schedule begins with the block's words and goes on by the recurrence. -/
def Obligations.ScheduleFollowsTheRecurrence : Prop :=
  ∀ (m : Vector Word 16) (n : Nat),
    (∀ t : Fin 16, (schedule m n)[t.val] = m[t]) ∧
    (∀ t : Nat, (hlo : 16 ≤ t) → (hhi : t < 16 + n) →
      (schedule m n)[t] = smallSigma1 (schedule m n)[t - 2] + (schedule m n)[t - 7] +
        smallSigma0 (schedule m n)[t - 15] + (schedule m n)[t - 16])

/-- R207: after n shifts the window holds W[n] to W[n+15]. -/
def Obligations.WindowHoldsTheScheduleWords : Prop :=
  ∀ (m : Vector Word 16) (n : Nat) (j : Fin 16), (scheduleShift^[n] m)[j] = (schedule m n)[n + j.val]

/-- R215: the worked values of round 0 of the "abc" block. -/
def Obligations.WorkedShaRound : Prop :=
  shaRound ivRom kRom[0] 0x61626380 =
    #v[0x5d6aebcd, 0x6a09e667, 0xbb67ae85, 0x3c6ef372, 0xfa2a4622, 0x510e527f, 0x9b05688c, 0x1f83d9ab] ∧
  kRom[0] = 0x428a2f98 ∧
  ivRom[7] + bigSigma1 ivRom[4] + ch ivRom[4] ivRom[5] ivRom[6] + kRom[0] + 0x61626380 = 0x54da50e8 ∧
  bigSigma0 ivRom[0] + maj ivRom[0] ivRom[1] ivRom[2] = 0x08909ae5

/-! ## Keccak -/

/-- R301, R302, R304, R305, R306: the step mappings, lane by lane at column x and row y. -/
def Obligations.KeccakStepMappings : Prop :=
  ∀ (a : Vector Lane 25) (x y : Fin 5) (rc : Lane),
    let column := fun c : Fin 5 => a[c.val] ^^^ a[c.val + 5] ^^^ a[c.val + 10] ^^^ a[c.val + 15] ^^^ a[c.val + 20]
    (theta a)[x.val + 5 * y.val] = a[x.val + 5 * y.val] ^^^ (column (x + 4) ^^^ (column (x + 1)).rotateLeft 1) ∧
    (rho a)[x.val + 5 * y.val] = (a[x.val + 5 * y.val]).rotateLeft rhoRom[x.val + 5 * y.val] ∧
    (pi a)[y.val + 5 * ((2 * x.val + 3 * y.val) % 5)] = a[x.val + 5 * y.val] ∧
    (chi a)[x.val + 5 * y.val] = a[x.val + 5 * y.val] ^^^
      (~~~(a[(x + 1 : Fin 5).val + 5 * y.val]) &&& a[(x + 2 : Fin 5).val + 5 * y.val]) ∧
    (iota a rc)[x.val + 5 * y.val] =
      (if x.val + 5 * y.val = 0 then a[0] ^^^ rc else a[x.val + 5 * y.val])

/-- R303 and R307: RHO is the table of its definition, with lane 0 not rotated; bit j of RCC[ir] is the output of the LFSR
after j + 7 ir steps, and RC[ir] is the expansion of that code. How the LFSR steps and which bit it outputs is the model's
reading of R307, notes/assumptions/15.md. -/
def Obligations.TablesFollowTheirDefinitions : Prop :=
  (rhoRom[0] = 0 ∧ (rhoWalk 24 0 1 0).length = 24 ∧ ∀ p ∈ rhoWalk 24 0 1 0, rhoRom.toList[p.1]? = some p.2) ∧
  (∀ (ir : Fin 24) (j : Fin 7), rccRom[ir].getLsbD j.val = (lfsr (j.val + 7 * ir.val)).getLsbD 0) ∧
  (∀ (ir : Fin 24) (k : Nat), k < 64 →
    (rcRom[ir].getLsbD k = true ↔ ∃ j : Fin 7, rccRom[ir].getLsbD j.val = true ∧ k = 2 ^ j.val - 1))

/-- R309: for every state the chain computes pi(rho(A)). -/
def Obligations.ChainFormEqualsRhoThenPi : Prop :=
  ∀ a : Vector Lane 25, rhoPiChain a = pi (rho a)

/-- R314: the worked values of single steps, and one round of the zero state, which leaves only lane 0 non-zero. -/
def Obligations.WorkedKeccakSteps : Prop :=
  theta ((Vector.replicate 25 0).set 0 1) = (Vector.ofFn fun i =>
    if i ∈ ([0, 1, 6, 11, 16, 21] : List (Fin 25)) then 0x01
    else if i ∈ ([4, 9, 14, 19, 24] : List (Fin 25)) then 0x02 else 0) ∧
  rho (Vector.replicate 25 1) = (Vector.ofFn fun i => (1 : Lane) <<< rhoRom[i]) ∧
  (rho (Vector.replicate 25 1))[2] = 0x4000000000000000 ∧
  pi (Vector.ofFn fun i => BitVec.ofNat 64 i.val) = (Vector.ofFn fun d => BitVec.ofNat 64 (piSrc[d]).val) ∧
  (chi ((((Vector.replicate 25 0).set 0 5).set 1 3).set 2 6)).toList.take 5 = [1, 3, 6, 5, 2] ∧
  (iota (Vector.replicate 25 0) rcRom[3])[0] = 0x8000000080008000 ∧
  kRound (Vector.replicate 25 0) rcRom[0] = (Vector.replicate 25 (0 : Lane)).set 0 0x0000000000000001

/-! ## Digest and hex -/

/-- R402: HEX holds lowercase hex characters whatever DIGEST holds, and distinct digests give distinct strings. -/
def Obligations.HexIsLowercaseAndInjective : Prop :=
  (∀ (s t : State), s.pend = none → exec .hexEnc s = .next t → ∀ n : Fin 64,
    (0x30 ≤ (t.hex[n]).toNat ∧ (t.hex[n]).toNat ≤ 0x39) ∨ (0x61 ≤ (t.hex[n]).toNat ∧ (t.hex[n]).toNat ≤ 0x66)) ∧
  (∀ d d' : Vector Byte 32, hexEncode d = hexEncode d' → d = d')

/-- The serializations lose nothing: reading DIGEST back in the engine's own byte order gives H, and the first four lanes
of A (R65, R403, R404). -/
def Obligations.SerializationIsInvertible : Prop :=
  (∀ (h : Vector Word 8) (i : Fin 8),
    be32 (serializeH h)[4 * i.val] (serializeH h)[4 * i.val + 1] (serializeH h)[4 * i.val + 2]
      (serializeH h)[4 * i.val + 3] = h[i]) ∧
  (∀ (a : Vector Lane 25) (i : Fin 4),
    le64 (serializeA a)[8 * i.val] (serializeA a)[8 * i.val + 1] (serializeA a)[8 * i.val + 2]
      (serializeA a)[8 * i.val + 3] (serializeA a)[8 * i.val + 4] (serializeA a)[8 * i.val + 5]
      (serializeA a)[8 * i.val + 6] (serializeA a)[8 * i.val + 7] = a[i.val])

/-! ## Bus reads -/

/-- R66: a sub-word or misaligned read returns 0 and changes no state. -/
def Obligations.BadReadsReturnZero : Prop :=
  ∀ (off : Offset) (size : Size) (s : State), ¬IsWord off size →
    transact (.read off size) s = { s with rdata := some 0x00000000 }

/-- R67: while idle an aligned read returns the register, bytes and lane halves placed as R63 and R64 say. -/
def Obligations.IdleReadsReturnTheRegisters : Prop :=
  ∀ s : State, s.pend = none →
    (∀ i : Fin 8, busValue (at4 0x040 i) .four s = s.h[i]) ∧
    (∀ (k : Fin 34) (j : Fin 4), (busValue (at4 0x080 k) .four s).extractLsb' (8 * j.val) 8 = s.buf[4 * k.val + j.val]) ∧
    (∀ i : Fin 25, busValue (at4 0x200 (2 * i.val)) .four s = (s.a[i]).extractLsb' 0 32) ∧
    (∀ i : Fin 25, busValue (at4 0x200 (2 * i.val + 1)) .four s = (s.a[i]).extractLsb' 32 32) ∧
    (∀ (k : Fin 8) (j : Fin 4), (busValue (at4 0x300 k) .four s).extractLsb' (8 * j.val) 8 = s.digest[4 * k.val + j.val]) ∧
    (∀ (k : Fin 16) (j : Fin 4), (busValue (at4 0x340 k) .four s).extractLsb' (8 * j.val) 8 = s.hex[4 * k.val + j.val]) ∧
    (∀ off : Offset, IsWritableData off.toNat ∨ IsHex off.toNat → IsWord off .four →
      transact (.read off .four) s = { s with rdata := some (busValue off .four s) })

/-- R68: while busy an aligned read of a data register returns a draw of its own, whatever that is, and changes no state of
the THC (the draw counter is the model's own, notes/assumptions/2.md). -/
def Obligations.BusyDataReadsReturnADraw : Prop :=
  ∀ (off : Offset) (s : State), s.pend ≠ none → IsWord off .four → IsWritableData off.toNat ∨ IsHex off.toNat →
    transact (.read off .four) s = { s with rdata := some (Config.busyRead s.draws), draws := s.draws + 1 }

/-- R69: ID, CMD, STATUS and unmapped offsets read the same busy or idle, and the read changes no state. -/
def Obligations.ControlReadsNeverDependOnBusy : Prop :=
  ∀ s : State,
    transact (.read 0x000 .four) s = { s with rdata := some 0x54480107 } ∧
    transact (.read 0x004 .four) s = { s with rdata := some 0x00000000 } ∧
    transact (.read 0x008 .four) s = { s with rdata := some (0#8 ++ s.lastop ++ s.errcode ++ 0#5 ++
      BitVec.ofBool s.err ++ BitVec.ofBool s.done ++ BitVec.ofBool s.pend.isSome : BitVec 32) } ∧
    ∀ off : Offset, IsWord off .four → IsUnmapped off.toNat →
      transact (.read off .four) s = { s with rdata := some 0x00000000 }

/-- The fields of STATUS stand at their bits, BUSY is 1 exactly when PEND holds a command, and the reserved bits read 0
(R24, R25). -/
def Obligations.StatusFieldsStandAtTheirBits : Prop :=
  ∀ s : State,
    ((statusWord s).getLsbD 0 = true ↔ s.pend ≠ none) ∧ (statusWord s).getLsbD 1 = s.done ∧
    (statusWord s).getLsbD 2 = s.err ∧ (statusWord s).extractLsb' 3 5 = 0 ∧
    (statusWord s).extractLsb' 8 8 = s.errcode ∧ (statusWord s).extractLsb' 16 8 = s.lastop ∧
    (statusWord s).extractLsb' 24 8 = 0

/-! ## Bus writes -/

/-- R71: while idle an aligned write stores into the register, byte by byte or half by half, and changes nothing else. -/
def Obligations.IdleWritesStoreTheRegister : Prop :=
  ∀ (s : State) (v : Word), s.pend = none →
    (∀ i : Fin 8, transact (.write (at4 0x040 i) .four v) s = { s with h := s.h.set i v }) ∧
    (∀ k : Fin 34, ∃ b, transact (.write (at4 0x080 k) .four v) s = { s with buf := b } ∧ ∀ j : Fin 136,
      b[j] = if j.val / 4 = k.val then v.extractLsb' (8 * (j.val % 4)) 8 else s.buf[j]) ∧
    (∀ i : Fin 25, ∃ x : Lane, transact (.write (at4 0x200 (2 * i.val)) .four v) s = { s with a := s.a.set i x } ∧
      x.extractLsb' 0 32 = v ∧ x.extractLsb' 32 32 = (s.a[i]).extractLsb' 32 32) ∧
    (∀ i : Fin 25, ∃ x : Lane, transact (.write (at4 0x200 (2 * i.val + 1)) .four v) s = { s with a := s.a.set i x } ∧
      x.extractLsb' 32 32 = v ∧ x.extractLsb' 0 32 = (s.a[i]).extractLsb' 0 32) ∧
    (∀ k : Fin 8, ∃ d, transact (.write (at4 0x300 k) .four v) s = { s with digest := d } ∧ ∀ j : Fin 32,
      d[j] = if j.val / 4 = k.val then v.extractLsb' (8 * (j.val % 4)) 8 else s.digest[j])

/-- R72, R73 and R610: which error a write raises, in the order of the tests; a refused write stores nothing, and SOFT_RESET
is never refused. -/
def Obligations.WriteErrorsFollowThePriority : Prop :=
  ∀ (off : Offset) (size : Size) (v : Word) (s : State),
    (¬IsWord off size → transact (.write off size v) s = afterError 0x04 s) ∧
    (IsWord off size →
      (IsUnmapped off.toNat → transact (.write off size v) s = afterError 0x05 s) ∧
      (off = 0x000 ∨ IsHex off.toNat → transact (.write off size v) s = afterError 0x06 s) ∧
      (IsWritableData off.toNat → s.pend ≠ none → transact (.write off size v) s = afterError 0x03 s) ∧
      (off = 0x004 → v = 0x000000FF → transact (.write off size v) s = resetState s) ∧
      (off = 0x004 → v ≠ 0x000000FF → s.pend ≠ none → transact (.write off size v) s = afterError 0x02 s) ∧
      (off = 0x004 → s.pend = none → (∀ i, decode v ≠ .ok i) → transact (.write off size v) s = afterError 0x01 s))

/-- R605: a STATUS write clears DONE by bit 1, and ERR with ERRCODE by bit 2, busy or idle; nothing else changes. -/
def Obligations.StatusWriteClearsByOnes : Prop :=
  ∀ (v : Word) (s : State), transact (.write 0x008 .four v) s =
    { s with
      done := s.done && !v.getLsbD 1
      err := s.err && !v.getLsbD 2
      errcode := if v.getLsbD 2 then 0x00 else s.errcode }

/-- R603: recording an error keeps the first code and changes nothing else; and the codes are those of R600. -/
def Obligations.FirstErrorIsKept : Prop :=
  (∀ (e : ErrorCode) (s : State), recordError e s = afterError e.code s) ∧
  (∀ (e e' : ErrorCode) (s : State), recordError e' (recordError e s) = recordError e s) ∧
  ErrorCode.code .illegalCmd = 0x01 ∧ ErrorCode.code .busyCmd = 0x02 ∧ ErrorCode.code .busyWrite = 0x03 ∧
  ErrorCode.code .badAccess = 0x04 ∧ ErrorCode.code .unmappedWrite = 0x05 ∧ ErrorCode.code .roWrite = 0x06

/-- R614: the write clrst, or 0x00000004 to STATUS, clears ERR and ERRCODE and re-arms recording for the next error; until
then a later error is not recorded. -/
def Obligations.ClearingTheErrorRearmsRecording : Prop :=
  ∀ (s : State) (v : Word) (e : ErrorCode), v = 0x00000006 ∨ v = 0x00000004 →
    (transact (.write 0x008 .four v) s).err = false ∧ (transact (.write 0x008 .four v) s).errcode = 0x00 ∧
    (recordError e (transact (.write 0x008 .four v) s)).err = true ∧
    (recordError e (transact (.write 0x008 .four v) s)).errcode = e.code ∧
    (s.err = true → recordError e s = s)

/-- Writing a data register twice is writing it once, busy or idle, and no read has an effect on what is read later while
idle (R76). -/
def Obligations.DataWritesAreIdempotent : Prop :=
  (∀ (off : Offset) (v : Word) (s : State), IsWord off .four → IsWritableData off.toNat →
    transact (.write off .four v) (transact (.write off .four v) s) = transact (.write off .four v) s) ∧
  (∀ (off off' : Offset) (size size' : Size) (s : State), s.pend = none →
    busValue off' size' (transact (.read off size) s) = busValue off' size' s)

/-! ## Reset -/

/-- R700: after power-on, and after a reset of any state, STATUS reads 0x00000000, PEND = none and STEP = 0. -/
def Obligations.ResetDefinesTheControlState : Prop :=
  (State.reset.pend = none ∧ State.reset.stepCtr = 0 ∧ State.reset.done = false ∧ State.reset.err = false ∧
    State.reset.errcode = 0x00 ∧ State.reset.lastop = 0x00 ∧ statusWord State.reset = 0x00000000) ∧
  ∀ s : State, (resetState s).pend = none ∧ (resetState s).stepCtr = 0 ∧ (resetState s).done = false ∧
    (resetState s).err = false ∧ (resetState s).errcode = 0x00 ∧ (resetState s).lastop = 0x00 ∧
    statusWord (resetState s) = 0x00000000

/-- R702: the platform's reset input and SOFT_RESET have the identical effect, and power-on is that effect with the first
draw. -/
def Obligations.ResetSourcesAgree : Prop :=
  (∀ (s : State) (rest : List Turn),
    step { s with turns := .reset :: rest } = step { s with turns := .bus (.write 0x004 .four 0x000000FF) :: rest } ∧
    step { s with turns := .reset :: rest } = exec .softReset { s with turns := rest }) ∧
  (∀ s : State, s.draws = 0 → s.turns = [] → s.rdata = none → resetState s = State.reset)

/-! ## Invariants -/

/-- The invariant holds after power-on. -/
def Obligations.InvariantHoldsAtReset : Prop :=
  Inv State.reset

/-- Every step keeps the invariant, from every state that has it (R26, R28, R29, R36, R212, R313, R600). -/
def Obligations.EveryStepKeepsTheInvariant : Prop :=
  ∀ s t : State, Inv s → step s = .next t → Inv t

/-- From every state of the invariant the machine goes on: the THC has no hang and no trap (R158, R613). -/
def Obligations.InvariantStatesStepOn : Prop :=
  ∀ s : State, Inv s → StepsOn s

/-! ## Platform and host procedures -/

/-- R60 and R61: an access, read or write, reaches the window exactly when BASE ≤ addr < BASE + 0x400 and its width is 1, 2 or
4, and it is then the transaction of that width at the offset addr - BASE; another access leaves the machine as it is. -/
def Obligations.AccessesReachTheWindow : Prop :=
  (∀ (base addr size : Nat) (data : Option Word),
    (atBus base addr size data).isSome ↔ base ≤ addr ∧ addr < base + 0x400 ∧ (size = 1 ∨ size = 2 ∨ size = 4)) ∧
  (∀ (base addr : Nat), base ≤ addr → addr < base + 0x400 →
    ∀ p ∈ ([(1, .one), (2, .two), (4, .four)] : List (Nat × Size)),
      atBus base addr p.1 none = some (.read (BitVec.ofNat 10 (addr - base)) p.2) ∧
      ∀ v : Word, atBus base addr p.1 (some v) = some (.write (BitVec.ofNat 10 (addr - base)) p.2 v)) ∧
  (∀ (s : State) (addr size : Nat) (data : Option Word),
    (∀ t, atBus Config.base addr size data = some t → s.hostAccess addr size data = { s with turns := s.turns ++ [.bus t] }) ∧
    (atBus Config.base addr size data = none → s.hostAccess addr size data = s)) ∧
  Config.base % 0x400 = 0

/-- R506 and R507: the host procedure answers for every message below the limit and issues that many SHA_COMPRESS commands; it
refuses a longer message. R506's last example, that 119 bytes give 3, contradicts its formula, which gives 2, and the procedure
of R503 and R504: that the formula holds is the model's choice, notes/assumptions/14.md. -/
def Obligations.ShaTransformCount : Prop :=
  ∀ (blk : Vector Byte 64) (msg : List Byte),
    (msg.length < 2 ^ 61 → ∃ ts, sha256Turns blk msg = some ts ∧
      commandCount .shaCompress ts = msg.length / 64 + (if msg.length % 64 ≤ 55 then 1 else 2)) ∧
    (2 ^ 61 ≤ msg.length → sha256Turns blk msg = none)

/-- R513: how many KEC_ABSORB commands the host procedure issues for a message of n bytes. -/
def Obligations.KeccakTransformCount : Prop :=
  ∀ (blk : Vector Byte 136) (msg : List Byte),
    commandCount .kecAbsorb (keccak256Turns blk msg) = msg.length / 136 + 1

/-- R515: the context and the transactions depend only on the concatenation of the bytes passed to update. -/
def Obligations.UpdatesDoNotDependOnTheSplit : Prop :=
  (∀ (c : ShaContext) (xs ys : List Byte), shaUpdate c (xs ++ ys) =
    ((shaUpdate (shaUpdate c xs).1 ys).1, (shaUpdate c xs).2 ++ (shaUpdate (shaUpdate c xs).1 ys).2)) ∧
  (∀ (c : KecContext) (xs ys : List Byte), kecUpdate c (xs ++ ys) =
    ((kecUpdate (kecUpdate c xs).1 ys).1, (kecUpdate c xs).2 ++ (kecUpdate (kecUpdate c xs).1 ys).2))

/-- R512: the bytes of the padded last block, with both padding bits in byte 135 where they meet; and what finalization does
with it: load it, absorb it, serialize, encode, read the string. -/
def Obligations.KeccakPaddingBytes : Prop :=
  (∀ (blk : Vector Byte 136) (fill j : Fin 136),
    (kecLastBlock blk fill)[j] =
      (if j.val < fill.val then blk[j] else if j.val = fill.val then 0x01 else 0x00) |||
        (if j.val = 135 then 0x80 else 0x00)) ∧
  (∀ c : KecContext, ∃ last : Vector Byte 136,
    (∀ j : Fin 136, last[j] = (if j.val < c.fill.val then c.blk[j] else if j.val = c.fill.val then 0x01 else 0x00) |||
      (if j.val = 135 then 0x80 else 0x00)) ∧
    kecFinal c = ldbuf last.toList ++ run .kecAbsorb ++ run .digKec ++ run .hexEnc ++ rdhex)

/-- R504: the blocks that finalization loads: 0x80 after the message, zeros, and the bit length big-endian in the last eight
bytes; where fill is 56 or more the length stands in a block of its own, after a transform of the first. -/
def Obligations.ShaPaddingBytes : Prop :=
  ∀ c : ShaContext, ∃ first last : Vector Byte 64,
    shaFinal c =
      (if c.fill.val < 56 then [] else ldbuf64 first.toList ++ run .shaCompress) ++
        (ldbuf64 last.toList ++ run .shaCompress) ++ run .digSha ++ run .hexEnc ++ rdhex ∧
    (∀ j : Fin 64, first[j] =
      if j.val < c.fill.val then c.blk[j] else if j.val = c.fill.val then 0x80 else 0x00) ∧
    (∀ j : Fin 64, last[j] =
      if 56 ≤ j.val then (c.totalBits + BitVec.ofNat 64 (8 * c.fill.val)).extractLsb' (8 * (63 - j.val)) 8
      else if c.fill.val < 56 then first[j] else 0x00)

/-- R517, R500 and R407: at an idle machine the procedures sha256 and keccak256 return, for every message (for SHA-256 below
the limit of R507), the digest of the message in lowercase hex, 64 characters; they leave the machine idle and raise no error.
The string is the bytes that rdhex reads, which are HEX in order. That the engine takes no step between two turns and one step
between two polls is the model's choice of schedule, notes/assumptions/3.md. -/
def Obligations.ProceduresReturnTheDigests : Prop :=
  (∀ s : State, s.pend = none → ∃ u words, hostTurns rdhex s = some (u, words) ∧ hexString words = s.hex.toList) ∧
  (∀ (s : State) (blk : Vector Byte 64) (msg : List Byte), s.pend = none → msg.length < 2 ^ 61 →
    ∃ u, sha256 blk msg s = some (u, (hexEncode (sha256Digest msg)).toList) ∧
      u.pend = none ∧ u.err = s.err ∧ u.errcode = s.errcode) ∧
  (∀ (s : State) (blk : Vector Byte 136) (msg : List Byte), s.pend = none →
    ∃ u, keccak256 blk msg s = some (u, (hexEncode (keccak256Digest msg)).toList) ∧
      u.pend = none ∧ u.err = s.err ∧ u.errcode = s.errcode)
end

