-- ==== Sys2Proof/Laws/State.lean ====
section
/-! SUPPORT. One lemma per field for each named update of the state, so that no later proof unfolds an update. -/

namespace Sys2Proof.Machine

variable (s : State) (i : Instr) (e : ErrorCode) (w : Word) (off : Offset) (size : Size) (rest : List Turn)

/-! ## Draws of a whole register -/

/-- Every word of a drawn window is a draw of its own. -/
@[simp] theorem drawnWS_get (d : Nat) (j : Nat) (h : j < 16) : (drawnWS d)[j] = Config.drawWS d j := by
  simp [drawnWS]

/-- Every drawn working variable is a draw of its own. -/
@[simp] theorem drawnV_get (d : Nat) (j : Nat) (h : j < 8) : (drawnV d)[j] = Config.drawV d j := by
  simp [drawnV]

/-! ## releaseHidden -/

@[simp] theorem releaseHidden_pend : (releaseHidden s).pend = s.pend := rfl

@[simp] theorem releaseHidden_stepCtr : (releaseHidden s).stepCtr = s.stepCtr := rfl

@[simp] theorem releaseHidden_done : (releaseHidden s).done = s.done := rfl

@[simp] theorem releaseHidden_err : (releaseHidden s).err = s.err := rfl

@[simp] theorem releaseHidden_errcode : (releaseHidden s).errcode = s.errcode := rfl

@[simp] theorem releaseHidden_lastop : (releaseHidden s).lastop = s.lastop := rfl

@[simp] theorem releaseHidden_h : (releaseHidden s).h = s.h := rfl

@[simp] theorem releaseHidden_buf : (releaseHidden s).buf = s.buf := rfl

@[simp] theorem releaseHidden_a : (releaseHidden s).a = s.a := rfl

@[simp] theorem releaseHidden_digest : (releaseHidden s).digest = s.digest := rfl

@[simp] theorem releaseHidden_hex : (releaseHidden s).hex = s.hex := rfl

@[simp] theorem releaseHidden_ws : (releaseHidden s).ws = drawnWS s.draws := rfl

@[simp] theorem releaseHidden_v : (releaseHidden s).v = drawnV s.draws := rfl

@[simp] theorem releaseHidden_t : (releaseHidden s).t = Config.drawT s.draws := rfl

@[simp] theorem releaseHidden_ir : (releaseHidden s).ir = Config.drawIR s.draws := rfl

@[simp] theorem releaseHidden_draws : (releaseHidden s).draws = s.draws + 1 := rfl

@[simp] theorem releaseHidden_rdata : (releaseHidden s).rdata = s.rdata := rfl

@[simp] theorem releaseHidden_turns : (releaseHidden s).turns = s.turns := rfl

/-! ## accept -/

@[simp] theorem accept_pend : (accept i s).pend = some i := rfl

@[simp] theorem accept_stepCtr : (accept i s).stepCtr = 0 := rfl

@[simp] theorem accept_done : (accept i s).done = false := rfl

@[simp] theorem accept_err : (accept i s).err = s.err := rfl

@[simp] theorem accept_errcode : (accept i s).errcode = s.errcode := rfl

@[simp] theorem accept_lastop : (accept i s).lastop = i.opcode := rfl

@[simp] theorem accept_h : (accept i s).h = s.h := rfl

@[simp] theorem accept_buf : (accept i s).buf = s.buf := rfl

@[simp] theorem accept_a : (accept i s).a = s.a := rfl

@[simp] theorem accept_digest : (accept i s).digest = s.digest := rfl

@[simp] theorem accept_hex : (accept i s).hex = s.hex := rfl

@[simp] theorem accept_ws : (accept i s).ws = drawnWS s.draws := rfl

@[simp] theorem accept_v : (accept i s).v = drawnV s.draws := rfl

@[simp] theorem accept_t : (accept i s).t = Config.drawT s.draws := rfl

@[simp] theorem accept_ir : (accept i s).ir = Config.drawIR s.draws := rfl

@[simp] theorem accept_draws : (accept i s).draws = s.draws + 1 := rfl

@[simp] theorem accept_rdata : (accept i s).rdata = s.rdata := rfl

@[simp] theorem accept_turns : (accept i s).turns = s.turns := rfl

/-! ## complete -/

@[simp] theorem complete_pend : (complete s).pend = none := rfl

@[simp] theorem complete_stepCtr : (complete s).stepCtr = 0 := rfl

@[simp] theorem complete_done : (complete s).done = true := rfl

@[simp] theorem complete_err : (complete s).err = s.err := rfl

@[simp] theorem complete_errcode : (complete s).errcode = s.errcode := rfl

@[simp] theorem complete_lastop : (complete s).lastop = s.lastop := rfl

@[simp] theorem complete_h : (complete s).h = s.h := rfl

@[simp] theorem complete_buf : (complete s).buf = s.buf := rfl

@[simp] theorem complete_a : (complete s).a = s.a := rfl

@[simp] theorem complete_digest : (complete s).digest = s.digest := rfl

@[simp] theorem complete_hex : (complete s).hex = s.hex := rfl

@[simp] theorem complete_ws : (complete s).ws = drawnWS s.draws := rfl

@[simp] theorem complete_v : (complete s).v = drawnV s.draws := rfl

@[simp] theorem complete_t : (complete s).t = Config.drawT s.draws := rfl

@[simp] theorem complete_ir : (complete s).ir = Config.drawIR s.draws := rfl

@[simp] theorem complete_draws : (complete s).draws = s.draws + 1 := rfl

@[simp] theorem complete_rdata : (complete s).rdata = s.rdata := rfl

@[simp] theorem complete_turns : (complete s).turns = s.turns := rfl

/-! ## advance: everything but PEND, STEP, DONE, the hidden registers and the draw number stays -/

@[simp] theorem advance_err : (advance i s).err = s.err := by
  unfold advance; split <;> rfl

@[simp] theorem advance_errcode : (advance i s).errcode = s.errcode := by
  unfold advance; split <;> rfl

@[simp] theorem advance_lastop : (advance i s).lastop = s.lastop := by
  unfold advance; split <;> rfl

@[simp] theorem advance_h : (advance i s).h = s.h := by
  unfold advance; split <;> rfl

@[simp] theorem advance_buf : (advance i s).buf = s.buf := by
  unfold advance; split <;> rfl

@[simp] theorem advance_a : (advance i s).a = s.a := by
  unfold advance; split <;> rfl

@[simp] theorem advance_digest : (advance i s).digest = s.digest := by
  unfold advance; split <;> rfl

@[simp] theorem advance_hex : (advance i s).hex = s.hex := by
  unfold advance; split <;> rfl

@[simp] theorem advance_rdata : (advance i s).rdata = s.rdata := by
  unfold advance; split <;> rfl

@[simp] theorem advance_turns : (advance i s).turns = s.turns := by
  unfold advance; split <;> rfl

/-! ## recordError -/

@[simp] theorem recordError_pend : (recordError e s).pend = s.pend := by
  unfold recordError; split <;> rfl

@[simp] theorem recordError_stepCtr : (recordError e s).stepCtr = s.stepCtr := by
  unfold recordError; split <;> rfl

@[simp] theorem recordError_done : (recordError e s).done = s.done := by
  unfold recordError; split <;> rfl

@[simp] theorem recordError_lastop : (recordError e s).lastop = s.lastop := by
  unfold recordError; split <;> rfl

@[simp] theorem recordError_h : (recordError e s).h = s.h := by
  unfold recordError; split <;> rfl

@[simp] theorem recordError_buf : (recordError e s).buf = s.buf := by
  unfold recordError; split <;> rfl

@[simp] theorem recordError_a : (recordError e s).a = s.a := by
  unfold recordError; split <;> rfl

@[simp] theorem recordError_digest : (recordError e s).digest = s.digest := by
  unfold recordError; split <;> rfl

@[simp] theorem recordError_hex : (recordError e s).hex = s.hex := by
  unfold recordError; split <;> rfl

@[simp] theorem recordError_ws : (recordError e s).ws = s.ws := by
  unfold recordError; split <;> rfl

@[simp] theorem recordError_v : (recordError e s).v = s.v := by
  unfold recordError; split <;> rfl

@[simp] theorem recordError_t : (recordError e s).t = s.t := by
  unfold recordError; split <;> rfl

@[simp] theorem recordError_ir : (recordError e s).ir = s.ir := by
  unfold recordError; split <;> rfl

@[simp] theorem recordError_draws : (recordError e s).draws = s.draws := by
  unfold recordError; split <;> rfl

@[simp] theorem recordError_rdata : (recordError e s).rdata = s.rdata := by
  unfold recordError; split <;> rfl

@[simp] theorem recordError_turns : (recordError e s).turns = s.turns := by
  unfold recordError; split <;> rfl

@[simp] theorem recordError_err : (recordError e s).err = true := by
  unfold recordError; split <;> simp_all

@[simp] theorem recordError_errcode : (recordError e s).errcode = if s.err then s.errcode else e.code := by
  unfold recordError; split <;> simp_all

/-! ## statusWrite -/

@[simp] theorem statusWrite_pend : (statusWrite w s).pend = s.pend := rfl

@[simp] theorem statusWrite_stepCtr : (statusWrite w s).stepCtr = s.stepCtr := rfl

@[simp] theorem statusWrite_done : (statusWrite w s).done = if w.getLsbD 1 then false else s.done := rfl

@[simp] theorem statusWrite_err : (statusWrite w s).err = if w.getLsbD 2 then false else s.err := rfl

@[simp] theorem statusWrite_errcode : (statusWrite w s).errcode = if w.getLsbD 2 then 0 else s.errcode := rfl

@[simp] theorem statusWrite_lastop : (statusWrite w s).lastop = s.lastop := rfl

@[simp] theorem statusWrite_h : (statusWrite w s).h = s.h := rfl

@[simp] theorem statusWrite_buf : (statusWrite w s).buf = s.buf := rfl

@[simp] theorem statusWrite_a : (statusWrite w s).a = s.a := rfl

@[simp] theorem statusWrite_digest : (statusWrite w s).digest = s.digest := rfl

@[simp] theorem statusWrite_hex : (statusWrite w s).hex = s.hex := rfl

@[simp] theorem statusWrite_ws : (statusWrite w s).ws = s.ws := rfl

@[simp] theorem statusWrite_v : (statusWrite w s).v = s.v := rfl

@[simp] theorem statusWrite_t : (statusWrite w s).t = s.t := rfl

@[simp] theorem statusWrite_ir : (statusWrite w s).ir = s.ir := rfl

@[simp] theorem statusWrite_draws : (statusWrite w s).draws = s.draws := rfl

@[simp] theorem statusWrite_rdata : (statusWrite w s).rdata = s.rdata := rfl

@[simp] theorem statusWrite_turns : (statusWrite w s).turns = s.turns := rfl

/-! ## busRead: only the model's own fields change -/

@[simp] theorem busRead_pend : (busRead off size s).pend = s.pend := rfl

@[simp] theorem busRead_stepCtr : (busRead off size s).stepCtr = s.stepCtr := rfl

@[simp] theorem busRead_done : (busRead off size s).done = s.done := rfl

@[simp] theorem busRead_err : (busRead off size s).err = s.err := rfl

@[simp] theorem busRead_errcode : (busRead off size s).errcode = s.errcode := rfl

@[simp] theorem busRead_lastop : (busRead off size s).lastop = s.lastop := rfl

@[simp] theorem busRead_h : (busRead off size s).h = s.h := rfl

@[simp] theorem busRead_buf : (busRead off size s).buf = s.buf := rfl

@[simp] theorem busRead_a : (busRead off size s).a = s.a := rfl

@[simp] theorem busRead_digest : (busRead off size s).digest = s.digest := rfl

@[simp] theorem busRead_hex : (busRead off size s).hex = s.hex := rfl

@[simp] theorem busRead_ws : (busRead off size s).ws = s.ws := rfl

@[simp] theorem busRead_v : (busRead off size s).v = s.v := rfl

@[simp] theorem busRead_t : (busRead off size s).t = s.t := rfl

@[simp] theorem busRead_ir : (busRead off size s).ir = s.ir := rfl

@[simp] theorem busRead_draws : (busRead off size s).draws = if takesDraw off size s then s.draws + 1 else s.draws := rfl

@[simp] theorem busRead_rdata : (busRead off size s).rdata = some (busValue off size s) := rfl

@[simp] theorem busRead_turns : (busRead off size s).turns = s.turns := rfl

/-! ## resetState -/

@[simp] theorem resetState_pend : (resetState s).pend = none := rfl

@[simp] theorem resetState_stepCtr : (resetState s).stepCtr = 0 := rfl

@[simp] theorem resetState_done : (resetState s).done = false := rfl

@[simp] theorem resetState_err : (resetState s).err = false := rfl

@[simp] theorem resetState_errcode : (resetState s).errcode = 0 := rfl

@[simp] theorem resetState_lastop : (resetState s).lastop = 0 := rfl

@[simp] theorem resetState_t : (resetState s).t = Config.drawT s.draws := rfl

@[simp] theorem resetState_ir : (resetState s).ir = Config.drawIR s.draws := rfl

@[simp] theorem resetState_draws : (resetState s).draws = s.draws + 1 := rfl

@[simp] theorem resetState_rdata : (resetState s).rdata = s.rdata := rfl

@[simp] theorem resetState_turns : (resetState s).turns = s.turns := rfl

@[simp] theorem resetState_h : (resetState s).h = Vector.ofFn fun j => Config.resetH s.draws j.val := rfl

@[simp] theorem resetState_buf : (resetState s).buf = Vector.ofFn fun j => Config.resetBuf s.draws j.val := rfl

@[simp] theorem resetState_a : (resetState s).a = Vector.ofFn fun j => Config.resetA s.draws j.val := rfl

@[simp] theorem resetState_digest : (resetState s).digest = Vector.ofFn fun j => Config.resetDigest s.draws j.val := rfl

@[simp] theorem resetState_hex : (resetState s).hex = Vector.ofFn fun j => Config.resetHex s.draws j.val := rfl

@[simp] theorem resetState_ws : (resetState s).ws = drawnWS s.draws := rfl

@[simp] theorem resetState_v : (resetState s).v = drawnV s.draws := rfl

/-! ## busy -/

@[simp] theorem accept_busy : (accept i s).busy = true := rfl

@[simp] theorem complete_busy : (complete s).busy = false := rfl

@[simp] theorem recordError_busy : (recordError e s).busy = s.busy := by
  simp [State.busy]

@[simp] theorem statusWrite_busy : (statusWrite w s).busy = s.busy := rfl

@[simp] theorem busRead_busy : (busRead off size s).busy = s.busy := rfl

@[simp] theorem resetState_busy : (resetState s).busy = false := rfl

theorem busy_false_iff : s.busy = false ↔ s.pend = none := by
  simp [State.busy]

theorem busy_true_iff : s.busy = true ↔ s.pend ≠ none := by
  simp [State.busy, Option.isSome_iff_ne_none]

end Sys2Proof.Machine
end

