-- ==== Sys2Proof/Laws/Ops.lean ====
section
/-! SUPPORT. What each shared operation can do, said once: outcomes in sequence, errors, engine steps and runs, whole
commands, the register map and the two transactions. -/

namespace Sys2Proof.Machine

/-! ## Outcomes -/

@[simp] theorem andThen_next (s : State) (f : State → Result) : andThen (.next s) f = f s := rfl

@[simp] theorem andThen_fault (x : Fault) (f : State → Result) : andThen (.fault x) f = .fault x := rfl

@[simp] theorem andThen_refused (x : Refusal) (f : State → Result) : andThen (.refused x) f = .refused x := rfl

/-- A sequence goes on exactly when both of its parts do. -/
theorem andThen_eq_next (r : Result) (f : State → Result) (t : State) :
    andThen r f = .next t ↔ ∃ u, r = .next u ∧ f u = .next t := by
  cases r <;> simp

theorem andThen_assoc (r : Result) (f g : State → Result) :
    andThen (andThen r f) g = andThen r fun s => andThen (f s) g := by
  cases r <;> rfl

/-! ## Errors -/

/-- Recording an error either keeps the state, because one is recorded, or sets ERR and ERRCODE. -/
theorem recordError_cases (e : ErrorCode) (s : State) :
    (s.err = true ∧ recordError e s = s) ∨
      (s.err = false ∧ recordError e s = { s with err := true, errcode := e.code }) := by
  unfold recordError
  cases h : s.err <;> simp

theorem ErrorCode.code_pos (e : ErrorCode) : e.code ≠ 0 := by
  cases e <;> decide

theorem ErrorCode.code_le (e : ErrorCode) : e.code.toNat ≤ 6 := by
  cases e <;> decide

/-! ## Engine steps and runs -/

/-- An engine step on command i goes on exactly when STEP names a micro-step of i that goes on; the next state is that
micro-step's, with the sequencing moved on. -/
theorem engineTick_eq_next (i : Instr) (micro : Nat → State → Result) (s t : State) :
    engineTick i micro s = .next t ↔
      s.stepCtr.toNat < lat i ∧ ∃ u, micro s.stepCtr.toNat s = .next u ∧ t = advance i u := by
  unfold engineTick
  split
  · rw [andThen_eq_next]
    simp_all [eq_comm]
  · simp_all

theorem engineTick_of_next {i : Instr} {micro : Nat → State → Result} {s u : State}
    (hlt : s.stepCtr.toNat < lat i) (hu : micro s.stepCtr.toNat s = .next u) :
    engineTick i micro s = .next (advance i u) :=
  (engineTick_eq_next i micro s _).2 ⟨hlt, u, hu, rfl⟩

/-- The last micro-step completes the command. -/
theorem advance_last {i : Instr} {s : State} (h : s.stepCtr.toNat + 1 = lat i) : advance i s = complete s :=
  if_pos h

/-- A micro-step that is not the last counts STEP on. -/
theorem advance_more {i : Instr} {s : State} (h : s.stepCtr.toNat + 1 ≠ lat i) :
    advance i s = { s with stepCtr := s.stepCtr + 1 } :=
  if_neg h

@[simp] theorem engineRun_zero (i : Instr) (micro : Nat → State → Result) (s : State) :
    engineRun i micro 0 s = .next s := rfl

theorem engineRun_succ (i : Instr) (micro : Nat → State → Result) (k : Nat) (s : State) :
    engineRun i micro (k + 1) s = andThen (engineTick i micro s) (engineRun i micro k) := rfl

/-- A run of j + k engine steps is a run of j and then a run of k. -/
theorem engineRun_add (i : Instr) (micro : Nat → State → Result) (j k : Nat) (s : State) :
    engineRun i micro (j + k) s = andThen (engineRun i micro j s) (engineRun i micro k) := by
  induction j generalizing s with
  | zero => simp
  | succ j ih =>
    rw [Nat.succ_add, engineRun_succ, engineRun_succ, andThen_assoc]
    congr 1
    funext u
    exact ih u

/-- A run from a sequence of states, each one engine step after the one before. -/
theorem engineRun_of_states {i : Instr} {micro : Nat → State → Result} (f : Nat → State) (k : Nat)
    (h : ∀ n < k, engineTick i micro (f n) = .next (f (n + 1))) : engineRun i micro k (f 0) = .next (f k) := by
  induction k generalizing f with
  | zero => rfl
  | succ k ih =>
    rw [engineRun_succ, h 0 (by omega), andThen_next]
    exact ih (fun n => f (n + 1)) fun n hn => h (n + 1) (by omega)

/-- The engine's step on a pending command. -/
theorem engineStep_pending {s : State} {i : Instr} (h : s.pend = some i) :
    engineStep s = engineTick i (microStep i) s := by
  simp [engineStep, h]

theorem engineStep_idle {s : State} (h : s.pend = none) : engineStep s = .next s := by
  simp [engineStep, h]

/-! ## Whole commands -/

/-- A command written while busy records BUSY_CMD. -/
theorem runCommand_busy {i : Instr} {micro : Nat → State → Result} {s : State} (h : s.pend ≠ none) :
    runCommand i micro s = .next (recordError .busyCmd s) := by
  simp [runCommand, (busy_true_iff s).2 h]

/-- A command written while idle is accepted and runs its micro-steps. -/
theorem runCommand_idle {i : Instr} {micro : Nat → State → Result} {s : State} (h : s.pend = none) :
    runCommand i micro s = engineRun i micro (lat i) (accept i s) := by
  simp [runCommand, (busy_false_iff s).2 h]

/-- A command of one micro-step f that leaves STEP alone: while idle it is accepted, has its effect and completes. -/
theorem runCommand_oneStep {i : Instr} {micro : Nat → State → Result} {f : State → State} {s : State}
    (hlat : lat i = 1) (hmicro : ∀ u, micro 0 u = .next (f u)) (hstep : ∀ u, (f u).stepCtr = u.stepCtr)
    (h : s.pend = none) : runCommand i micro s = .next (complete (f (accept i s))) := by
  have htick : engineTick i micro (accept i s) = .next (advance i (f (accept i s))) :=
    engineTick_of_next (by simp [hlat]) (by simp [hmicro])
  rw [runCommand_idle h, hlat, engineRun_succ, htick, andThen_next, engineRun_zero,
    advance_last (by simp [hstep, hlat])]

/-- Every command but SOFT_RESET is run over its own micro-steps. -/
theorem exec_eq_runCommand {i : Instr} (h : i ≠ .softReset) (s : State) :
    exec i s = runCommand i (microStep i) s := by
  cases i <;> first | rfl | exact absurd rfl h

theorem exec_softReset (s : State) : exec .softReset s = .next (resetState s) := rfl

/-- A command other than SOFT_RESET written while busy is turned away. -/
theorem exec_busy {i : Instr} {s : State} (hi : i ≠ .softReset) (h : s.pend ≠ none) :
    exec i s = .next (recordError .busyCmd s) := by
  rw [exec_eq_runCommand hi, runCommand_busy h]

/-- A SHA-256 round whose T is in the ROM goes on. -/
theorem shaRoundStep_next {s : State} (ht : s.t.toNat < 64) :
    shaRoundStep s =
      .next { s with v := shaRound s.v kRom[s.t.toNat] s.ws[0], ws := scheduleShift s.ws, t := s.t + 1 } :=
  dif_pos ht

/-- A Keccak round whose IR is in the ROM goes on. -/
theorem kecRoundStep_next {s : State} (hr : s.ir.toNat < 24) :
    kecRoundStep s = .next { s with a := kRound s.a rcRom[s.ir.toNat], ir := s.ir + 1 } :=
  dif_pos hr

/-- A SHA-256 round goes on only where T is in the ROM. -/
theorem shaRoundStep_eq_next (s t : State) : shaRoundStep s = .next t ↔
    ∃ ht : s.t.toNat < 64,
      t = { s with v := shaRound s.v kRom[s.t.toNat] s.ws[0], ws := scheduleShift s.ws, t := s.t + 1 } := by
  unfold shaRoundStep
  split <;> simp_all [eq_comm]

/-- A Keccak round goes on only where IR is in the ROM. -/
theorem kecRoundStep_eq_next (s t : State) : kecRoundStep s = .next t ↔
    ∃ hr : s.ir.toNat < 24, t = { s with a := kRound s.a rcRom[s.ir.toNat], ir := s.ir + 1 } := by
  unfold kecRoundStep
  split <;> simp_all [eq_comm]

/-- A micro-step that goes on leaves the sequencing, STATUS and the model's own fields alone. -/
theorem microStep_frame {i : Instr} {n : Nat} {s t : State} (h : microStep i n s = .next t) :
    t.pend = s.pend ∧ t.stepCtr = s.stepCtr ∧ t.done = s.done ∧ t.err = s.err ∧ t.errcode = s.errcode ∧
      t.lastop = s.lastop ∧ t.draws = s.draws ∧ t.rdata = s.rdata ∧ t.turns = s.turns := by
  cases i with
  | nop => cases h; simp
  | shaInit => cases h; simp
  | kecInit => cases h; simp
  | digSha => cases h; simp
  | digKec => cases h; simp
  | hexEnc => cases h; simp
  | bufClear => cases h; simp
  | softReset => cases h
  | shaCompress =>
    simp only [microStep, shaCompressMicro] at h
    split at h
    · cases h; simp [shaLoad]
    · split at h
      · obtain ⟨-, rfl⟩ := (shaRoundStep_eq_next s t).1 h; simp
      · cases h; simp [shaFinish]
  | kecPermute =>
    simp only [microStep, kecPermuteMicro] at h
    split at h <;> (obtain ⟨-, rfl⟩ := (kecRoundStep_eq_next _ t).1 h; simp)
  | kecAbsorb =>
    simp only [microStep, kecAbsorbMicro] at h
    split at h
    · cases h; simp [kecXorStep]
    · obtain ⟨-, rfl⟩ := (kecRoundStep_eq_next s t).1 h; simp

/-! ## Command words -/

/-- The opcode map is the table of opcodes read backwards (spec/30_encoding.md R103). -/
theorem decodeOpcode_eq_some (o : Byte) (i : Instr) : decodeOpcode o = some i ↔ o = i.opcode := by
  revert o; cases i <;> decide

/-- What a write to CMD does: reset, BUSY_CMD, acceptance or ILLEGAL_CMD. -/
theorem commandWrite_cases (c : Word) (s : State) :
    (c = 0x000000FF ∧ commandWrite c s = resetState s) ∨
    (c ≠ 0x000000FF ∧ s.pend ≠ none ∧ commandWrite c s = recordError .busyCmd s) ∨
    (∃ i, c ≠ 0x000000FF ∧ s.pend = none ∧ decode c = .ok i ∧ commandWrite c s = accept i s) ∨
    (∃ e, c ≠ 0x000000FF ∧ s.pend = none ∧ decode c = .error e ∧ commandWrite c s = recordError .illegalCmd s) := by
  by_cases hc : c = 0x000000FF
  · exact .inl ⟨hc, if_pos hc⟩
  · have hw : commandWrite c s = if s.busy then recordError .busyCmd s else
        match decode c with
        | .ok i => accept i s
        | .error _ => recordError .illegalCmd s := if_neg hc
    cases hp : s.pend with
    | some j => exact .inr (.inl ⟨hc, by simp, by simp [hw, State.busy, hp]⟩)
    | none =>
      cases hd : decode c with
      | ok i => exact .inr (.inr (.inl ⟨i, hc, rfl, rfl, by simp [hw, State.busy, hp, hd]⟩))
      | error e => exact .inr (.inr (.inr ⟨e, hc, rfl, rfl, by simp [hw, State.busy, hp, hd]⟩))

/-! ## The register map -/

theorem wordAccess_iff (off : Offset) (size : Size) :
    wordAccess off size = true ↔ size = .four ∧ off.toNat % 4 = 0 := by
  simp only [wordAccess, Bool.and_eq_true, beq_iff_eq, ← BitVec.toNat_inj, BitVec.extractLsb'_toNat]
  simp

theorem regOfByte_h (i : Fin 8) : regOfByte (0x040 + 4 * i.val) = .h i := by
  revert i; decide

theorem regOfByte_bufw (k : Fin 34) : regOfByte (0x080 + 4 * k.val) = .bufw k := by
  revert k; decide

theorem regOfByte_aLow (i : Fin 25) : regOfByte (0x200 + 8 * i.val) = .aLow i := by
  revert i; decide

theorem regOfByte_aHigh (i : Fin 25) : regOfByte (0x204 + 8 * i.val) = .aHigh i := by
  revert i; decide

theorem regOfByte_dw (k : Fin 8) : regOfByte (0x300 + 4 * k.val) = .dw k := by
  revert k; decide

theorem regOfByte_hw (k : Fin 16) : regOfByte (0x340 + 4 * k.val) = .hw k := by
  revert k; decide

/-! ## Transactions -/

/-- A write to a data register stores while idle and records BUSY_WRITE while busy. -/
theorem dataWrite_cases (f : State → State) (s : State) :
    (s.pend = none ∧ dataWrite f s = f s) ∨ (s.pend ≠ none ∧ dataWrite f s = recordError .busyWrite s) := by
  cases hp : s.pend <;> simp [dataWrite, State.busy, hp]

theorem busWrite_word {off : Offset} {size : Size} (h : wordAccess off size = true) (v : Word) (s : State) :
    busWrite off size v s = regWrite (regAt off) v s :=
  if_pos h

theorem busWrite_bad {off : Offset} {size : Size} (h : wordAccess off size = false) (v : Word) (s : State) :
    busWrite off size v s = recordError .badAccess s := by
  simp [busWrite, h]

end Sys2Proof.Machine
end

