-- ==== Sys2Proof/Laws/Host.lean ====
section
/-! SUPPORT. A host that runs its turns: the engine does not look at the host's fields, a transaction is one step, and run
is the whole command of exec, however many polls its wait takes. -/

namespace Sys2Proof.Machine

/-- The same THC with the fields of the model's own that belong to the host: the word read last and the turns. -/
def withHost (r : Option Word) (q : List Turn) (s : State) : State :=
  { s with rdata := r, turns := q }

/-! ## The engine does not look at the host -/

theorem kecRoundStep_host (r : Option Word) (q : List Turn) (s : State) :
    kecRoundStep (withHost r q s) = andThen (kecRoundStep s) fun t => .next (withHost r q t) := by
  unfold kecRoundStep withHost
  split <;> rfl

theorem microStep_host (i : Instr) (n : Nat) (r : Option Word) (q : List Turn) (s : State) :
    microStep i n (withHost r q s) = andThen (microStep i n s) fun t => .next (withHost r q t) := by
  cases i <;> try rfl
  · simp only [microStep, shaCompressMicro, shaRoundStep]
    split_ifs <;> first | rfl | contradiction
  · simp only [microStep, kecPermuteMicro]
    split
    · exact kecRoundStep_host r q { s with ir := 0 }
    · exact kecRoundStep_host r q s
  · simp only [microStep, kecAbsorbMicro]
    split
    · rfl
    · exact kecRoundStep_host r q s

theorem advance_host (i : Instr) (r : Option Word) (q : List Turn) (s : State) :
    advance i (withHost r q s) = withHost r q (advance i s) := by
  by_cases h : s.stepCtr.toNat + 1 = lat i
  · rw [advance_last h, advance_last (s := withHost r q s) h]; rfl
  · rw [advance_more h, advance_more (s := withHost r q s) h]; rfl

theorem engineTick_host (i : Instr) (r : Option Word) (q : List Turn) (s : State) :
    engineTick i (microStep i) (withHost r q s) =
      andThen (engineTick i (microStep i) s) fun t => .next (withHost r q t) := by
  have hs : (withHost r q s).stepCtr = s.stepCtr := rfl
  unfold engineTick
  rw [hs]
  split
  · rw [microStep_host, andThen_assoc, andThen_assoc]
    congr 1; funext u
    simp [advance_host]
  · rfl

/-! ## Turns, one at a time -/

theorem hostTurns_append (xs ys : List Turn) (s : State) :
    hostTurns (xs ++ ys) s = (hostTurns xs s).bind fun r => (hostTurns ys r.1).map fun q => (q.1, r.2 ++ q.2) := by
  induction xs generalizing s with
  | nil => simp [hostTurns]
  | cons t rest ih =>
    simp only [List.cons_append, hostTurns]
    split
    · rfl
    · rw [ih]
      cases hostTurns rest _ with
      | none => rfl
      | some r => cases h : hostTurns ys r.1 <;> simp [h]

/-- With no turn left a drain is over. -/
theorem drain_done (fuel : Nat) {s : State} (h : s.turns = []) : drain fuel s = some s := by
  cases fuel <;> simp [drain, h]

/-- A drain takes the step of the turn at the head. -/
theorem drain_step (fuel : Nat) {s s' : State} (h : s.turns ≠ []) (hs : step s = .next s') :
    drain (fuel + 1) s = drain fuel s' := by
  cases ht : s.turns with
  | nil => exact absurd ht h
  | cons t rest => simp only [drain, ht, hs]

@[simp] theorem commandWrite_turns (c : Word) (s : State) : (commandWrite c s).turns = s.turns := by
  obtain ⟨-, h⟩ | ⟨-, -, h⟩ | ⟨i, -, -, -, h⟩ | ⟨e, -, -, -, h⟩ := commandWrite_cases c s <;> simp [h]

theorem dataWrite_turns {f : State → State} (hf : ∀ u, (f u).turns = u.turns) (s : State) :
    (dataWrite f s).turns = s.turns := by
  obtain ⟨-, h⟩ | ⟨-, h⟩ := dataWrite_cases f s <;> simp [h, hf]

@[simp] theorem busWrite_turns (off : Offset) (size : Size) (v : Word) (s : State) :
    (busWrite off size v s).turns = s.turns := by
  unfold busWrite
  split
  · unfold regWrite
    split <;> first | rfl | exact dataWrite_turns (by intro u; rfl) s | simp
  · simp

@[simp] theorem transact_turns (t : Transaction) (s : State) : (transact t s).turns = s.turns := by
  cases t <;> simp [transact]

/-- A transaction of the host is over in its one step. -/
theorem hostTurns_bus (t : Transaction) (rest : List Turn) (s : State) :
    hostTurns (.bus t :: rest) s = (hostTurns rest (transact t { s with turns := [] })).map fun r =>
      (r.1, received (.bus t) (transact t { s with turns := [] }) ++ r.2) := by
  have h : drain turnSteps { s with turns := [.bus t] } = some (transact t { s with turns := [] }) :=
    (drain_step 132 (by simp) rfl).trans (drain_done _ (by simp))
  simp only [hostTurns, h]
  cases hostTurns rest _ <;> rfl

/-- One poll of wait. -/
theorem step_wait (r : Option Word) (rest : List Turn) (s : State) :
    step (withHost r (.wait :: rest) s) =
      .next (withHost (some (statusWord s)) (if s.busy then .engine :: .wait :: rest else rest) s) := by
  have h : takesDraw statusOffset .four (withHost r (.wait :: rest) s) = false := by
    simp [takesDraw, statusOffset, regAt, regOfByte, Reg.isData]
  show Host.Outcome.next (pollStatus rest (withHost r (.wait :: rest) s)) = _
  unfold pollStatus busRead
  rw [h]
  rfl

/-- wait while idle: one poll. -/
theorem drain_wait_idle (fuel : Nat) (r : Option Word) {s : State} (h : s.pend = none) :
    drain (fuel + 1) (withHost r [.wait] s) = some (withHost (some (statusWord s)) [] s) := by
  rw [drain_step _ (by simp [withHost]) (step_wait r [] s), (busy_false_iff s).2 h]
  exact drain_done _ rfl

/-- wait while a command has k + 1 micro-steps left, and the run of them goes on to t: 2 (k + 1) + 1 steps, to t. -/
theorem drain_wait_pending {i : Instr} (fuel k : Nat) (r : Option Word) {u t : State} (hp : u.pend = some i)
    (hk : u.stepCtr.toNat + (k + 1) = lat i) (hlat : lat i < 128)
    (ht : engineRun i (microStep i) (k + 1) u = .next t) :
    drain (2 * (k + 1) + 1 + fuel) (withHost r [.wait] u) = some (withHost (some (statusWord t)) [] t) := by
  have hb : u.busy = true := (busy_true_iff u).2 (by simp [hp])
  obtain ⟨w, hw, hrun⟩ := (andThen_eq_next _ _ _).1 (engineRun_succ i (microStep i) k u ▸ ht)
  obtain ⟨-, x, hx, rfl⟩ := (engineTick_eq_next i (microStep i) u w).1 hw
  obtain ⟨hxp, hxs, -⟩ := microStep_frame hx
  have hengine : step (withHost (some (statusWord u)) [.engine, .wait] u) =
      .next (withHost (some (statusWord u)) [.wait] (advance i x)) := by
    show engineStep (withHost (some (statusWord u)) [.wait] u) = _
    have hp' : (withHost (some (statusWord u)) [.wait] u).pend = some i := hp
    rw [engineStep_pending hp', engineTick_host, hw, andThen_next]
  have hsplit : 2 * (k + 1) + 1 + fuel = 2 * k + 1 + fuel + 1 + 1 := by omega
  rw [hsplit, drain_step _ (by simp [withHost]) (step_wait r [] u), hb, if_pos rfl,
    drain_step _ (by simp [withHost]) hengine]
  cases k with
  | zero =>
    obtain rfl : advance i x = t := by simpa using hrun
    rw [show 2 * 0 + 1 + fuel = fuel + 1 by omega]
    exact drain_wait_idle fuel _ (by rw [advance_last (by rw [hxs]; omega)]; simp)
  | succ k =>
    have hmore : advance i x = { x with stepCtr := x.stepCtr + 1 } := advance_more (by rw [hxs]; omega)
    refine drain_wait_pending fuel k _ (by simp [hmore, hxp, hp]) ?_ hlat hrun
    rw [hmore, hxs]
    show (u.stepCtr + 1).toNat + (k + 1) = lat i
    rw [BitVec.toNat_add]
    simp
    omega

/-- The turns of run: from an idle state, the whole command of exec, with STATUS at its completion as the word read last. -/
theorem hostTurns_run {i : Instr} (hi : i ≠ .softReset) {s t : State} (hs : s.pend = none) (ht : exec i s = .next t)
    (rest : List Turn) :
    hostTurns (run i ++ rest) s = hostTurns rest (withHost (some (statusWord t)) [] t) := by
  have hlat : 1 ≤ lat i ∧ lat i ≤ 66 := by cases i <;> first | exact absurd rfl hi | decide
  have hw : transact (.write (BitVec.ofNat 10 0x004) .four (encode i)) { s with turns := [] } =
      accept i { s with turns := [] } := by
    have hc : encode i ≠ 0x000000FF := by cases i <;> first | exact absurd rfl hi | decide
    have hd : decode (encode i) = .ok i := by cases i <;> rfl
    have hb : ({ s with turns := [] } : State).busy = false := (busy_false_iff _).2 hs
    have hreg : transact (.write (BitVec.ofNat 10 0x004) .four (encode i)) { s with turns := [] } =
        commandWrite (encode i) { s with turns := [] } := rfl
    rw [hreg]
    unfold commandWrite
    rw [if_neg hc, hb, hd]
    rfl
  rw [exec_eq_runCommand hi, runCommand_idle hs] at ht
  obtain ⟨k, hk⟩ : ∃ k, lat i = k + 1 := ⟨lat i - 1, by omega⟩
  have hwait : drain turnSteps { accept i { s with turns := [] } with turns := [.wait] } =
      some (withHost (some (statusWord t)) [] t) := by
    have hfuel : turnSteps = 2 * (k + 1) + 1 + (133 - (2 * (k + 1) + 1)) := by unfold turnSteps; omega
    rw [hfuel]
    exact drain_wait_pending _ k s.rdata (u := accept i s) rfl (by simp [accept, hk]) (by omega) (hk ▸ ht)
  have hrest : hostTurns (.wait :: rest) (accept i { s with turns := [] }) =
      hostTurns rest (withHost (some (statusWord t)) [] t) := by
    simp only [hostTurns, hwait, received, List.nil_append]
    cases hostTurns rest _ <;> rfl
  show hostTurns (.bus (.write (BitVec.ofNat 10 0x004) .four (encode i)) :: .wait :: rest) s = _
  rw [hostTurns_bus, hw, hrest]
  cases hostTurns rest _ <;> rfl

end Sys2Proof.Machine
end

