-- ==== Sys2Proof/Laws/Operands.lean ====
section
/-! SUPPORT. The byte views: taking a value apart into bytes and putting it together in the same order gives it back, and
byte j of a bus word is byte 4k + j of the array. -/

namespace Sys2Proof.Machine

theorem be32_byteAt (w : Word) : be32 (byteAt w 3) (byteAt w 2) (byteAt w 1) (byteAt w 0) = w := by
  apply BitVec.eq_of_getLsbD_eq
  intro k hk
  interval_cases k <;> simp [be32, byteAt]

theorem le64_byteAt (x : Lane) :
    le64 (byteAt x 0) (byteAt x 1) (byteAt x 2) (byteAt x 3) (byteAt x 4) (byteAt x 5) (byteAt x 6) (byteAt x 7) = x := by
  apply BitVec.eq_of_getLsbD_eq
  intro k hk
  interval_cases k <;> simp [le64, byteAt]

theorem byteAt_le32 (b0 b1 b2 b3 : Byte) (j : Fin 4) : byteAt (le32 b0 b1 b2 b3) j.val = #v[b0, b1, b2, b3][j] := by
  apply BitVec.eq_of_getLsbD_eq
  intro k hk
  fin_cases j <;> interval_cases k <;> simp [le32, byteAt]

theorem byteAt_busWord {n : Nat} (b : Vector Byte (4 * n)) (k : Fin n) (j : Fin 4) :
    byteAt (busWord b k) j.val = b[4 * k.val + j.val] := by
  rw [busWord, byteAt_le32]
  fin_cases j <;> simp

theorem setBusWord_getElem {n : Nat} (b : Vector Byte (4 * n)) (k : Fin n) (v : Word) (j : Fin (4 * n)) :
    (setBusWord b k v)[j] = if j.val / 4 = k.val then byteAt v (j.val % 4) else b[j] := by
  simp [setBusWord]

theorem laneLow_setLaneLow (x : Lane) (v : Word) : laneLow (setLaneLow x v) = v := by
  apply BitVec.eq_of_getLsbD_eq
  intro k hk
  interval_cases k <;> simp [laneLow, setLaneLow]

theorem laneHigh_setLaneLow (x : Lane) (v : Word) : laneHigh (setLaneLow x v) = laneHigh x := by
  apply BitVec.eq_of_getLsbD_eq
  intro k hk
  interval_cases k <;> simp [laneHigh, setLaneLow]

theorem laneHigh_setLaneHigh (x : Lane) (v : Word) : laneHigh (setLaneHigh x v) = v := by
  apply BitVec.eq_of_getLsbD_eq
  intro k hk
  interval_cases k <;> simp [laneHigh, setLaneHigh]

theorem laneLow_setLaneHigh (x : Lane) (v : Word) : laneLow (setLaneHigh x v) = laneLow x := by
  apply BitVec.eq_of_getLsbD_eq
  intro k hk
  interval_cases k <;> simp [laneLow, setLaneHigh]

/-- ROTL on lanes is the library's rotation (spec/00_scope.md R10). -/
theorem rotl_eq_rotateLeft (x : Lane) {n : Nat} (h : n < 64) : rotl x n = x.rotateLeft n := by
  rw [BitVec.rotateLeft_def]
  simp [rotl, Nat.mod_eq_of_lt h]

/-- ROTR on words is the library's rotation (spec/00_scope.md R10). -/
theorem rotr_eq_rotateRight (x : Word) {n : Nat} (h : n < 32) : rotr x n = x.rotateRight n := by
  rw [BitVec.rotateRight_def]
  simp [rotr, Nat.mod_eq_of_lt h]

end Sys2Proof.Machine
end

