-- ==== Sys2Proof/Laws/PerInstr.lean ====
section
/-! SUPPORT. Statements for all commands, one lemma per constructor. Family Encoding: a command's word has RSV = 0 and the
command's OPC, and is a legal word (spec/30_encoding.md R100, R103, R104). -/

namespace Sys2Proof.Laws.Encoding

/-- The word of a well-formed command is legal, with RSV = 0 and OPC the command's own. -/
def Statement (i : Instr) : Prop :=
  i.wf = true ∧ legalWord (encode i) = true ∧ (encode i).extractLsb' 8 24 = 0 ∧ (encode i).extractLsb' 0 8 = i.opcode

theorem nop : Statement .nop := by unfold Statement; decide

theorem shaInit : Statement .shaInit := by unfold Statement; decide

theorem shaCompress : Statement .shaCompress := by unfold Statement; decide

theorem kecInit : Statement .kecInit := by unfold Statement; decide

theorem kecPermute : Statement .kecPermute := by unfold Statement; decide

theorem kecAbsorb : Statement .kecAbsorb := by unfold Statement; decide

theorem digSha : Statement .digSha := by unfold Statement; decide

theorem digKec : Statement .digKec := by unfold Statement; decide

theorem hexEnc : Statement .hexEnc := by unfold Statement; decide

theorem bufClear : Statement .bufClear := by unfold Statement; decide

theorem softReset : Statement .softReset := by unfold Statement; decide

end Sys2Proof.Laws.Encoding
end

