-- ==== Sys2Proof/Tests/Slice0.lean ====
section
/-! SUPPORT. The model's own tests. Expected values come from the spec: the encodings of spec/opcode_table.json and
spec/30_encoding.md R103, and the vectors of spec/95_test_vectors.md, each named where it is used. The witnesses show
that the hypotheses of each statement can be met, clause by clause at the edges of their ranges. -/

open Sys2Proof Sys2Proof.Machine Sys2Proof.Stated

namespace Sys2Proof.Tests

/-! ## Small states -/

/-- An idle state with every register zero. -/
def idleState : State where
  pend := none
  stepCtr := 0
  done := false
  err := false
  errcode := 0
  lastop := 0
  h := Vector.replicate 8 0
  buf := Vector.replicate 136 0
  a := Vector.replicate 25 0
  digest := Vector.replicate 32 0
  hex := Vector.replicate 64 0
  ws := Vector.replicate 16 0
  v := Vector.replicate 8 0
  t := 0
  ir := 0
  draws := 1
  rdata := none
  turns := []

/-- The same state with command i pending at micro-step n. -/
def pendingState (i : Instr) (n : Nat) : State :=
  { idleState with pend := some i, stepCtr := BitVec.ofNat 7 n, lastop := i.opcode }

/-- The padded block of "abc" in BUF[0..63] and H = IV (spec/41_sha256.md R211, example). -/
def abcState : State :=
  { idleState with
    h := ivRom
    buf := ((((idleState.buf.set 0 0x61).set 1 0x62).set 2 0x63).set 3 0x80).set 63 0x18 }

/-- The padded empty message in BUF (spec/95_test_vectors.md V-KEC-10). -/
def emptyRateState : State :=
  { idleState with buf := (idleState.buf.set 0 0x01).set 135 0x80 }

/-- A view of the state an outcome goes on to. -/
def view {α : Type} (f : State → α) : Host.Outcome State Fault Refusal → Option α
  | .next s => some (f s)
  | .fault _ => none
  | .refused _ => none

/-! ## Decoding: every row of spec/opcode_table.json, its encoding written out -/

theorem test_decode_nop : decode 0b00000000000000000000000000000000 = .ok .nop := by decide
theorem test_decode_shaInit : decode 0b00000000000000000000000000000001 = .ok .shaInit := by decide
theorem test_decode_shaCompress : decode 0b00000000000000000000000000000010 = .ok .shaCompress := by decide
theorem test_decode_kecInit : decode 0b00000000000000000000000000010000 = .ok .kecInit := by decide
theorem test_decode_kecPermute : decode 0b00000000000000000000000000010001 = .ok .kecPermute := by decide
theorem test_decode_kecAbsorb : decode 0b00000000000000000000000000010010 = .ok .kecAbsorb := by decide
theorem test_decode_digSha : decode 0b00000000000000000000000000100000 = .ok .digSha := by decide
theorem test_decode_digKec : decode 0b00000000000000000000000000100001 = .ok .digKec := by decide
theorem test_decode_hexEnc : decode 0b00000000000000000000000000100010 = .ok .hexEnc := by decide
theorem test_decode_bufClear : decode 0b00000000000000000000000000110000 = .ok .bufClear := by decide
theorem test_decode_softReset : decode 0b00000000000000000000000011111111 = .ok .softReset := by decide

/-- R105: a word such as 0x000001FF is not SOFT_RESET. -/
theorem test_decode_reserved : decode 0x000001FF = .error .reservedNotZero := by decide

/-- R109: OPC 0x03 is unassigned. -/
theorem test_decode_unassigned : decode 0x00000003 = .error .opcodeUnassigned := by decide

theorem test_table_word : decodeTableWord 32 0x22 = some .hexEnc := by decide

theorem test_table_word_too_wide : decodeTableWord 40 0x100000001 = none := by decide

/-! ## Well-formedness: an ill-formed term for each check -/

theorem test_refuses_reserved_bits : reservedZero 0x00000102 = false ∧ legalWord 0x00000102 = false := by decide
theorem test_refuses_unassigned_opcode : opcodeAssigned 0x00000003 = false ∧ legalWord 0x00000003 = false := by decide
theorem test_refuses_offset_past_window : legalOffset 0x400 = false ∧ legalOffset 0x3FF = true := by decide
theorem test_refuses_width_three : legalSize 3 = false ∧ legalSize 4 = true := by decide

/-! ## Bus and registers -/

/-- V-BUS-1. -/
theorem test_read_id : busValue 0x000 .four idleState = 0x54480107 := by decide

/-- V-BUS-2: byte lanes, and M[0] in the SHA-256 view. -/
theorem test_byte_lanes :
    (blockWords (busWrite 0x080 .four 0x80636261 idleState).buf)[0] = 0x61626380 := by decide +kernel

/-- V-BUS-3: lane 3 by halves. -/
theorem test_lane_halves :
    (busWrite 0x21C .four 0x01234567 (busWrite 0x218 .four 0x89ABCDEF idleState)).a[3] = 0x0123456789ABCDEF := by
  decide +kernel

/-- V-BUS-4: a sub-word read returns 0. -/
theorem test_subword_read : busValue 0x000 .one idleState = 0 := by decide

/-- Section 2.6: BAD_ACCESS comes before UNMAPPED_WRITE. -/
theorem test_bad_access_first : (busWrite 0x3FD .four 0 idleState).errcode = 0x04 := by decide

/-- Section 2.6: RO_WRITE comes before BUSY_WRITE. -/
theorem test_read_only_before_busy : (busWrite 0x354 .four 0 (pendingState .shaCompress 3)).errcode = 0x06 := by decide

/-- V-ERR-1: the first error is kept. -/
theorem test_first_error_kept :
    (busWrite 0x00C .four 0 (busWrite 0x000 .four 0 idleState)).errcode = 0x06 := by decide

/-- P4: BUSY_WRITE during SHA_COMPRESS gives STATUS = 0x00020305. -/
theorem test_busy_write_status :
    statusWord (busWrite 0x040 .four 0 (pendingState .shaCompress 0)) = 0x00020305 := by decide +kernel

/-! ## Control commands -/

/-- V-CTL-1. -/
theorem test_nop_status : view statusWord (exec .nop idleState) = some 0x00000002 := by decide +kernel

/-- V-CTL-2. -/
theorem test_bufClear_status : view statusWord (exec .bufClear abcState) = some 0x00300002 := by decide +kernel
theorem test_bufClear_last_byte : view (fun s => s.buf[135]) (exec .bufClear emptyRateState) = some 0x00 := by
  decide +kernel

/-- V-CTL-3: SOFT_RESET during a command. -/
theorem test_softReset_status : view statusWord (exec .softReset (pendingState .shaCompress 9)) = some 0x00000000 := by
  decide +kernel

/-- V-CTL-4: acceptance clears DONE. -/
theorem test_accept_status :
    statusWord (commandWrite 0x00000002 { idleState with done := true, lastop := 0x01 }) = 0x00020001 := by
  decide +kernel

/-! ## SHA-256 -/

/-- V-SHA-1. -/
theorem test_ch_maj : ch 0x510e527f 0x9b05688c 0x1f83d9ab = 0x1f85c98c ∧
    maj 0x6a09e667 0xbb67ae85 0x3c6ef372 = 0x3a6fe667 := by decide

/-- V-SHA-2, the row 0x12345678. -/
theorem test_sigmas : bigSigma0 0x12345678 = 0x66146474 ∧ bigSigma1 0x12345678 = 0x3561abda ∧
    smallSigma0 0x12345678 = 0xe7fce6ee ∧ smallSigma1 0x12345678 = 0xa1f78649 := by decide

/-- V-SHA-4: W[18] and W[19] of the "abc" block. -/
theorem test_schedule : (schedule (blockWords abcState.buf) 4)[18] = 0x7da86405 ∧
    (schedule (blockWords abcState.buf) 4)[19] = 0x600003c6 := by decide +kernel

/-- V-SHA-3. -/
theorem test_shaInit_status : view (fun s => (statusWord s, s.h[7])) (exec .shaInit idleState) =
    some (0x00010002, 0x5be0cd19) := by decide +kernel

/-- V-SHA-7: one word of the digest of "abc", through all 66 micro-steps. -/
theorem test_shaCompress_abc : view (fun s => s.h[7]) (exec .shaCompress abcState) = some 0xf20015ad := by
  decide +kernel
theorem test_shaCompress_status : view statusWord (exec .shaCompress abcState) = some 0x00020002 := by decide +kernel

/-! ## Keccak -/

/-- V-KEC-4: row 0 = (5, 3, 6, 0, 0) becomes (1, 3, 6, 5, 2). -/
theorem test_chi_row :
    ((chi (((idleState.a.set 0 5).set 1 3).set 2 6)).toList.take 5) = [1, 3, 6, 5, 2] := by decide +kernel

/-- V-KEC-1: with only A[0] = 1, lane 11 becomes 1 and lane 14 becomes 2. -/
theorem test_theta : (theta (idleState.a.set 0 1))[11] = 1 ∧ (theta (idleState.a.set 0 1))[14] = 2 := by decide +kernel

/-- V-KEC-7: two rounds of the zero state, lanes 13 and 15. -/
theorem test_two_rounds : (keccakRounds idleState.a 2 (by decide))[13] = 0x0000000000000202 ∧
    (keccakRounds idleState.a 2 (by decide))[15] = 0x0000000010000400 := by decide +kernel

/-- V-KEC-12. -/
theorem test_kecInit : view (fun s => (statusWord s, s.a[24])) (exec .kecInit { idleState with a := idleState.a.set 24 7 }) =
    some (0x00100002, 0) := by decide +kernel

/-- V-KEC-8: STATUS after KEC_PERMUTE; and IR reaches 24 in micro-step 23 (spec/42_keccak.md R311). -/
theorem test_kecPermute : view statusWord (exec .kecPermute idleState) = some 0x00110002 ∧
    view (fun s => s.ir) (microStep .kecPermute 23 { pendingState .kecPermute 23 with ir := 23 }) = some 24 := by
  decide +kernel

/-- V-KEC-10: A[0] after the padded empty message is absorbed. -/
theorem test_kecAbsorb : view (fun s => s.a[0]) (exec .kecAbsorb emptyRateState) = some 0x3c23f7860146d2c5 := by
  decide +kernel

/-! ## Digest and hex -/

/-- V-BUS-5. -/
theorem test_digSha : view (fun s => busValue 0x300 .four s)
    (exec .digSha { idleState with h := idleState.h.set 0 0x01020304 }) = some 0x04030201 := by decide +kernel

/-- V-DIG-2, the first word. -/
theorem test_digKec : view (fun s => (statusWord s, busValue 0x300 .four s))
    (exec .digKec { idleState with a := idleState.a.set 0 0x3c23f7860146d2c5 }) = some (0x00210002, 0x0146d2c5) := by
  decide +kernel

/-- V-HEX-1: DIGEST[0..3] = 89 ab 09 0a gives "89ab090a", HW0 and HW1. -/
theorem test_hexEnc : view (fun s => (busValue 0x340 .four s, busValue 0x344 .four s))
    (exec .hexEnc { idleState with digest := (((idleState.digest.set 0 0x89).set 1 0xab).set 2 0x09).set 3 0x0a }) =
      some (0x62613938, 0x61303930) := by decide +kernel

/-! ## A program's first command after power-on -/

/-- A word placed for the next step after power-on runs: STATUS as V-SHA-3 gives it. -/
theorem test_first_command : view statusWord (step (State.reset.withFetchWord 32 0x00000001)) = some 0x00010002 := by
  decide +kernel

/-! ## Host procedures -/

/-- V-HOST-4: both padding bits of a 135-byte message share byte 135. -/
theorem test_keccak_padding : (kecLastBlock idleState.buf 135)[135] = 0x81 := by decide +kernel

/-- R506: 56 bytes take two transforms in finalization, 55 take one. -/
theorem test_sha_final_counts :
    commandCount .shaCompress (shaFinal ⟨55, Vector.replicate 64 0, 0⟩) = 1 ∧
    commandCount .shaCompress (shaFinal ⟨56, Vector.replicate 64 0, 0⟩) = 2 := by decide +kernel

/-- R506's formula at 119 = 64 + 55 bytes: two transforms, where its example says three (notes/assumptions/14.md); and at its
other examples 63 and 64. -/
theorem test_sha_counts :
    [63, 64, 119].map (fun n => (sha256Turns (Vector.replicate 64 0) (List.replicate n 0)).map (commandCount .shaCompress)) =
      [some 2, some 2, some 2] := by decide +kernel

/-- expect at an idle machine: ID is what spec/10_state.md R22 says, and no other value. -/
theorem test_expect : (expect 0x000 0x54480107 idleState).map (·.2) = some true ∧
    (expect 0x000 0x54480106 idleState).map (·.2) = some false := by decide +kernel

/-- The first character that the procedure sha256 returns for "abc", through every transaction and micro-step
(spec/95_test_vectors.md, the digest of V-SHA-7). -/
theorem test_sha256_abc : (sha256 (Vector.replicate 64 0xAA) [0x61, 0x62, 0x63] idleState).map (·.2.getD 0 0) = some 0x62 := by
  decide +kernel

/-- The padded messages as the blocks of V-SHA-7 and V-KEC-10, whose digests the command tests check. -/
theorem test_sha_padded : blockOf 64 (shaPadded [0x61, 0x62, 0x63]) 0 = abcState.buf.take 64 ∧
    (shaPadded [0x61, 0x62, 0x63]).length = 64 ∧ (shaPadded (List.replicate 56 0)).length = 128 := by decide +kernel

theorem test_kec_padded : blockOf 136 (kecPadded []) 0 = emptyRateState.buf ∧
    (kecPadded (List.replicate 135 0)).getD 135 0 = 0x81 ∧ (kecPadded (List.replicate 136 0)).length = 272 := by
  decide +kernel

/-! ## Hidden registers outside the commands that write them -/

/-- I13: T and IR are a draw while another command is pending, whatever they held before. -/
theorem test_hidden_while_pending :
    (accept .kecAbsorb { idleState with t := 64 }).t = Config.drawT 1 ∧
    (accept .shaCompress { idleState with ir := 24 }).ir = Config.drawIR 1 := ⟨rfl, rfl⟩

/-- I13: the last micro-step of SHA_COMPRESS and of KEC_PERMUTE leaves T and IR a draw, not 64 and 24. -/
theorem test_hidden_after_sha :
    view (fun s => s.t) (engineStep { pendingState .shaCompress 65 with t := 64 }) = some (Config.drawT 1) := rfl
theorem test_hidden_after_kec :
    view (fun s => s.ir) (engineStep { pendingState .kecPermute 23 with ir := 23 }) = some (Config.drawIR 1) := rfl

/-! ## Witnesses: concrete states and operands that meet the hypotheses of each statement, clause by clause -/

/-- A host schedule for KEC_PERMUTE: a read, a refused data write, a refused command and an illegal word among its first 23
engine turns. -/
def busyTurns : List Turn :=
  [.bus (.read 0x040 .four), .engine, .bus (.write 0x040 .four 5), .bus (.write 0x004 .one 0xFF), .command 0x00000010,
    .bus (.write 0x004 .four 0x000001FF)] ++ List.replicate 22 .engine

/-- An idle state that has the same data registers as idleState and differs in STATUS and in the hidden registers. -/
def otherState : State :=
  { idleState with done := true, lastop := 0x02, t := 64, ir := 24, draws := 9 }

theorem pendingState_inv : Inv (pendingState .kecPermute 0) where
  pending_step := by rintro i ⟨⟩; decide
  pending_status := by rintro i ⟨⟩; decide
  idle_step := by intro h; cases h
  sha_counter := by intro h; cases h
  permute_index := by intro _ h; exact absurd h (by decide)
  absorb_index := by intro h; cases h
  err_code := by decide
  code_range := by decide

theorem witness_DecodeAndEncodeAgree : Instr.softReset.wf = true ∧ decode 0x000000FF = .ok .softReset := by decide

theorem witness_IllegalWordsAreRejected :
    (decode 0x000001FF = .error .reservedNotZero ∧ idleState.pend = none) ∧
    (decode 0x000000FE = .error .opcodeUnassigned ∧ (pendingState .nop 0).pend ≠ none) := by decide

theorem witness_StepRunsTheDecodedCommand : decode 0x00000030 = .ok .bufClear ∧ Instr.bufClear.wf = true := by decide

theorem witness_OneAgentMovesInOneStep : idleState.turns = [] ∧ idleState.pend = none := by decide

theorem witness_WaitPollsUntilIdle : idleState.pend = none ∧ (pendingState .kecAbsorb 24).pend ≠ none := by decide

theorem witness_CommandWriteFollowsItsTests :
    ((0x00000000 : Word) ≠ 0x000000FF ∧ (pendingState .nop 0).pend ≠ none) ∧
    (decode 0x00000003 = .error .opcodeUnassigned ∧ idleState.pend = none) ∧
    (decode 0x00000030 = .ok .bufClear ∧ Instr.bufClear ≠ .softReset ∧ idleState.pend = none) := by decide

/-- The last micro-step of NOP, and a micro-step of SHA_COMPRESS that is not the last. -/
theorem witness_EngineStepSequencesMicroSteps :
    (∃ u, (pendingState .nop 0).pend = some .nop ∧ (pendingState .nop 0).stepCtr.toNat < latTable .nop ∧
      microStep .nop (pendingState .nop 0).stepCtr.toNat (pendingState .nop 0) = .next u ∧
      (pendingState .nop 0).stepCtr.toNat + 1 = latTable .nop) ∧
    (∃ u, (pendingState .shaCompress 1).pend = some .shaCompress ∧
      (pendingState .shaCompress 1).stepCtr.toNat < latTable .shaCompress ∧
      microStep .shaCompress (pendingState .shaCompress 1).stepCtr.toNat (pendingState .shaCompress 1) = .next u ∧
      (pendingState .shaCompress 1).stepCtr.toNat + 1 ≠ latTable .shaCompress) :=
  ⟨⟨_, rfl, by decide, rfl, by decide⟩, ⟨_, rfl, by decide, rfl, by decide⟩⟩

theorem witness_CommandCompletesAfterExactlyLatSteps :
    Instr.shaCompress ≠ .softReset ∧ idleState.pend = none ∧ idleState.turns = [] ∧ 65 < latTable .shaCompress := by decide

theorem witness_CollapsedCommandIsItsMicroSteps : Instr.kecAbsorb ≠ .softReset ∧ idleState.pend = none := by decide

theorem witness_HostAccessesCannotDisturbACommand :
    Instr.kecPermute ≠ .softReset ∧ idleState.pend = none ∧ (∀ t ∈ busyTurns, CannotReset t) ∧
    busyTurns.countP (fun t => t == .engine) + 1 = latTable .kecPermute ∧
    SameData idleState otherState ∧ otherState.pend = none ∧ otherState ≠ idleState := by
  refine ⟨by decide, by decide, ?_, by decide, ⟨rfl, rfl, rfl, rfl, rfl⟩, rfl, by decide +kernel⟩
  simp [busyTurns, CannotReset]

theorem witness_PendingCommandAlwaysCompletes :
    Inv (pendingState .kecPermute 0) ∧ (pendingState .kecPermute 0).pend = some .kecPermute ∧
    (pendingState .kecPermute 0).turns = [] :=
  ⟨pendingState_inv, rfl, rfl⟩

/-- The hypotheses of CommandRule (NOP to HEX_ENC): an idle state, a busy state. -/
theorem witness_CommandRule : idleState.pend = none ∧ (pendingState .hexEnc 0).pend ≠ none := by decide

/-- The hypotheses of OneMicroStep, for NopOnlyCompletes. -/
theorem witness_NopOnlyCompletes :
    ((pendingState .nop 0).pend = some .nop ∧ (pendingState .nop 0).stepCtr = 0) ∧
    statusWord idleState = 0x00000000 ∧ ∃ t, exec .nop idleState = .next t :=
  ⟨by decide, by decide, _, rfl⟩

theorem witness_BufClearZeroesTheBuffer :
    ((pendingState .bufClear 0).pend = some .bufClear ∧ (pendingState .bufClear 0).stepCtr = 0) ∧
    idleState.pend = none ∧ ∃ t, exec .bufClear idleState = .next t :=
  ⟨by decide, rfl, _, rfl⟩

theorem witness_ShaInitLoadsTheIv :
    ((pendingState .shaInit 0).pend = some .shaInit ∧ (pendingState .shaInit 0).stepCtr = 0) ∧
    idleState.pend = none ∧ ∃ t, exec .shaInit idleState = .next t :=
  ⟨by decide, rfl, _, rfl⟩

/-- Each micro-step clause at the edges of its range: the load, rounds 0 and 63, the feed-forward. -/
theorem witness_ShaCompressComputesTheCompression :
    ((pendingState .shaCompress 0).pend = some .shaCompress ∧ (pendingState .shaCompress 0).stepCtr = 0 ∧
      (pendingState .shaCompress 0).turns = []) ∧
    (1 ≤ (pendingState .shaCompress 1).stepCtr.toNat ∧ (pendingState .shaCompress 1).t.toNat < 64) ∧
    ((pendingState .shaCompress 64).stepCtr.toNat ≤ 64 ∧ ({ pendingState .shaCompress 64 with t := 63 } : State).t.toNat < 64) ∧
    (pendingState .shaCompress 65).stepCtr = 65 ∧ (pendingState .shaCompress 65).pend = some .shaCompress := by decide

theorem witness_KecInitZeroesTheState :
    ((pendingState .kecInit 0).pend = some .kecInit ∧ (pendingState .kecInit 0).stepCtr = 0) ∧
    idleState.pend = none ∧ ∃ t, exec .kecInit idleState = .next t :=
  ⟨by decide, rfl, _, rfl⟩

theorem witness_KecPermuteComputesThePermutation :
    (pendingState .kecPermute 0).pend = some .kecPermute ∧ (pendingState .kecPermute 0).stepCtr = 0 ∧
    (1 ≤ (pendingState .kecPermute 1).stepCtr.toNat ∧ (pendingState .kecPermute 22).stepCtr.toNat ≤ 22) ∧
    ((pendingState .kecPermute 23).stepCtr = 23 ∧ ({ pendingState .kecPermute 23 with ir := 23 } : State).ir.toNat < 24) := by
  decide

theorem witness_KecAbsorbComputesTheAbsorb :
    (pendingState .kecAbsorb 0).pend = some .kecAbsorb ∧ (pendingState .kecAbsorb 0).stepCtr = 0 ∧
    (1 ≤ (pendingState .kecAbsorb 1).stepCtr.toNat ∧ (pendingState .kecAbsorb 23).stepCtr.toNat ≤ 23) ∧
    ((pendingState .kecAbsorb 24).stepCtr = 24 ∧ ({ pendingState .kecAbsorb 24 with ir := 23 } : State).ir.toNat < 24) ∧
    ((16 : Fin 25).val < 17 ∧ 17 ≤ (17 : Fin 25).val) := by decide

theorem witness_DigShaSerializesBigEndian :
    ((pendingState .digSha 0).pend = some .digSha ∧ (pendingState .digSha 0).stepCtr = 0) ∧
    ∃ s t : State, s.pend = none ∧ s.h[0] = 0xba7816bf ∧ exec .digSha s = .next t :=
  ⟨by decide, { idleState with h := idleState.h.set 0 0xba7816bf }, _, rfl, rfl, rfl⟩

theorem witness_DigKecSerializesLittleEndian :
    ((pendingState .digKec 0).pend = some .digKec ∧ (pendingState .digKec 0).stepCtr = 0) ∧
    ∃ s t : State, s.pend = none ∧ s.a[0] = 0x3C23F7860146D2C5 ∧ exec .digKec s = .next t :=
  ⟨by decide, { idleState with a := idleState.a.set 0 0x3C23F7860146D2C5 }, _, rfl, rfl, rfl⟩

theorem witness_HexEncEncodesDigest :
    ((pendingState .hexEnc 0).pend = some .hexEnc ∧ (pendingState .hexEnc 0).stepCtr = 0) ∧
    ∃ s t : State, s.pend = none ∧ s.digest[0] = 0xba ∧ s.digest[1] = 0x78 ∧ exec .hexEnc s = .next t :=
  ⟨by decide, { idleState with digest := (idleState.digest.set 0 0xba).set 1 0x78 }, _, rfl, rfl, rfl, rfl⟩

/-- A command that goes on while idle and one that is turned away while busy; the operands of the second clause differ where
they may: in BUF[64] and in A[4]. -/
theorem witness_CommandsKeepTheirFootprint :
    (∃ t, exec .kecInit idleState = .next t) ∧ (∃ t, exec .kecInit (pendingState .nop 0) = .next t) ∧
    (∃ t t', exec .shaCompress idleState = .next t ∧
      exec .shaCompress { idleState with buf := idleState.buf.set 64 1 } = .next t' ∧
      ∀ j : Fin 64, idleState.buf[j.val] = (idleState.buf.set 64 1)[j.val]) ∧
    (∃ t t', exec .digKec idleState = .next t ∧ exec .digKec { idleState with a := idleState.a.set 4 1 } = .next t' ∧
      ∀ k : Fin 4, idleState.a[k.val] = (idleState.a.set 4 1)[k.val]) :=
  ⟨⟨_, rfl⟩, ⟨_, rfl⟩, ⟨_, _, rfl, rfl, by decide +kernel⟩, ⟨_, _, rfl, rfl, by decide +kernel⟩⟩

/-- Idle: the first byte after the register that SHA_INIT writes, and the first byte after STATUS. Busy: the last byte of CMD
and the first unmapped byte after STATUS. -/
theorem witness_WindowIsUnchangedOutsideTheResult :
    (idleState.pend = none ∧ (∃ t, exec .shaInit idleState = .next t) ∧
      ¬((writtenRange .shaInit).1 ≤ (0x060 : Offset).toNat ∧ (0x060 : Offset).toNat < (writtenRange .shaInit).2) ∧
      ¬(0x008 ≤ (0x00C : Offset).toNat ∧ (0x00C : Offset).toNat < 0x00C)) ∧
    ((pendingState .nop 0).pend ≠ none ∧ (∃ t, exec .shaInit (pendingState .nop 0) = .next t) ∧
      (0x007 : Offset).toNat < 0x008 ∧ IsUnmapped (0x00C : Offset).toNat) :=
  ⟨⟨rfl, ⟨_, rfl⟩, by decide, by decide⟩, by decide, ⟨_, rfl⟩, by decide, by simp [IsUnmapped]⟩

theorem witness_NoCommandFailsOnItsData :
    idleState.pend = none ∧ (∃ t, exec .hexEnc idleState = .next t) ∧ Instr.hexEnc ≠ .softReset :=
  ⟨rfl, ⟨_, rfl⟩, by decide⟩

theorem witness_ChoiceAndMajorityAreBitwise : (31 : Nat) < 32 := by decide

theorem witness_ScheduleFollowsTheRecurrence : 16 ≤ (63 : Nat) ∧ (63 : Nat) < 16 + 48 := by decide

theorem witness_TablesFollowTheirDefinitions : (63 : Nat) < 64 := by decide

theorem witness_HexIsLowercaseAndInjective :
    idleState.pend = none ∧ (∃ t, exec .hexEnc idleState = .next t) ∧
    hexEncode idleState.digest = hexEncode idleState.digest :=
  ⟨rfl, ⟨_, rfl⟩, rfl⟩

theorem witness_BadReadsReturnZero : ¬IsWord 0x000 .two ∧ ¬IsWord 0x3FF .four := by
  simp [IsWord]

theorem witness_IdleReadsReturnTheRegisters :
    idleState.pend = none ∧ (IsWritableData (0x31C : Offset).toNat ∧ IsWord 0x31C .four) ∧
    (IsHex (0x37C : Offset).toNat ∧ IsWord 0x37C .four) := by
  simp [IsWord, IsWritableData, IsHex, idleState]

theorem witness_BusyDataReadsReturnADraw :
    (pendingState .nop 0).pend ≠ none ∧ (IsWritableData (0x040 : Offset).toNat ∧ IsWord 0x040 .four) ∧
    (IsHex (0x340 : Offset).toNat ∧ IsWord 0x340 .four) := by
  simp [IsWord, IsWritableData, IsHex, pendingState]

theorem witness_ControlReadsNeverDependOnBusy :
    (IsUnmapped (0x00C : Offset).toNat ∧ IsWord 0x00C .four) ∧ (IsUnmapped (0x3FC : Offset).toNat ∧ IsWord 0x3FC .four) := by
  simp [IsWord, IsUnmapped]

theorem witness_IdleWritesStoreTheRegister : idleState.pend = none := rfl

/-- Each error at an edge of the range that raises it: after STATUS, the end of HEX, the ends of the data registers, CMD. -/
theorem witness_WriteErrorsFollowThePriority :
    ¬IsWord 0x005 .four ∧ (IsWord 0x00C .four ∧ IsUnmapped (0x00C : Offset).toNat) ∧ IsWord 0x000 .four ∧
    (IsWord 0x37C .four ∧ IsHex (0x37C : Offset).toNat) ∧
    (IsWord 0x05C .four ∧ IsWritableData (0x05C : Offset).toNat ∧ (pendingState .nop 0).pend ≠ none) ∧
    (IsWord 0x004 .four ∧ (0x000001FF : Word) ≠ 0x000000FF ∧ (0x000000FF : Word) = 0x000000FF) ∧
    (idleState.pend = none ∧ ∀ i, decode 0x00000003 ≠ .ok i) := by
  refine ⟨by simp [IsWord], by simp [IsWord, IsUnmapped], by simp [IsWord], by simp [IsWord, IsHex],
    by simp [IsWord, IsWritableData, pendingState], by simp [IsWord], rfl, ?_⟩
  intro i
  cases i <;> decide

theorem witness_ClearingTheErrorRearmsRecording :
    ((0x00000006 : Word) = 0x00000006 ∨ (0x00000006 : Word) = 0x00000004) ∧
    ((0x00000004 : Word) = 0x00000006 ∨ (0x00000004 : Word) = 0x00000004) ∧
    (recordError .roWrite idleState).err = true := by decide

theorem witness_DataWritesAreIdempotent :
    IsWord 0x2C4 .four ∧ IsWritableData (0x2C4 : Offset).toNat ∧ idleState.pend = none := by
  simp [IsWord, IsWritableData, idleState]

theorem witness_ResetSourcesAgree : ∃ s : State, s.draws = 0 ∧ s.turns = [] ∧ s.rdata = none :=
  ⟨{ idleState with draws := 0 }, rfl, rfl, rfl⟩

theorem witness_EveryStepKeepsTheInvariant :
    Inv (pendingState .kecPermute 0) ∧ ∃ t, step (pendingState .kecPermute 0) = .next t :=
  ⟨pendingState_inv, ⟨_, rfl⟩⟩

theorem witness_InvariantStatesStepOn : Inv (pendingState .kecPermute 0) :=
  pendingState_inv

/-- The last byte of a window, a width that makes a transaction and one that does not. -/
theorem witness_AccessesReachTheWindow :
    ((0x400 : Nat) ≤ 0x7FF ∧ (0x7FF : Nat) < 0x400 + 0x400) ∧
    (∃ t, atBus Config.base (Config.base + 0x3FF) 2 (some 5) = some t) ∧ atBus Config.base Config.base 3 none = none :=
  ⟨by decide, ⟨.write 0x3FF .two 5, by simp [atBus, legalOffset, hostSize]⟩, by simp [atBus, legalOffset, hostSize]⟩

/-- The longest message that the procedure takes and the shortest that it refuses. -/
theorem witness_ShaTransformCount :
    (List.replicate (2 ^ 61 - 1) (0x61 : Byte)).length < 2 ^ 61 ∧ 2 ^ 61 ≤ (List.replicate (2 ^ 61) (0x61 : Byte)).length := by
  simp only [List.length_replicate]
  decide

theorem witness_ProceduresReturnTheDigests :
    idleState.pend = none ∧ ([0x61, 0x62, 0x63] : List Byte).length < 2 ^ 61 := by decide

end Sys2Proof.Tests
end

section
/-! SUPPORT. Bus reads: which bytes of the window the data registers hold, and what a read of one returns while busy. -/

namespace Sys2Proof.Stated

open Sys2Proof.Machine

/-- The data registers stand at the offsets of H, BUFW, AW, DW and HW, and nowhere else (spec/20_memory.md R62). -/
theorem regOfByte_isData_iff (n : Nat) : (regOfByte n).isData = true ↔ IsWritableData n ∨ IsHex n := by
  unfold regOfByte IsWritableData IsHex
  split_ifs <;> simp only [Reg.isData, Bool.false_eq_true, true_iff, false_iff] <;> omega

/-- While busy every data register reads as the next draw (spec/20_memory.md R68). -/
theorem regValue_busy {r : Reg} {s : State} (hr : r.isData = true) (hs : s.busy = true) :
    regValue r s = Config.busyRead s.draws := by
  have hd (v : Word) : dataRead s v = Config.busyRead s.draws := if_pos hs
  cases r with
  | h | bufw | aLow | aHigh | dw | hw => exact hd _
  | id | cmd | status | unmapped => cases hr

/-- An aligned read of a data register takes a draw exactly while busy. -/
theorem takesDraw_data {off : Offset} {size : Size} (hw : wordAccess off size = true)
    (hr : (regAt off).isData = true) (s : State) : takesDraw off size s = s.busy := by
  simp [takesDraw, hw, hr]

theorem busValue_word {off : Offset} {size : Size} (hw : wordAccess off size = true) (s : State) :
    busValue off size s = regValue (regAt off) s :=
  if_pos hw

/-- Settles O40: the register at the offset is a data register, so the read returns the next draw and counts it. -/
theorem busyDataReadsReturnADraw : Obligations.BusyDataReadsReturnADraw := by
  intro off s hpend hword hoff
  have hbusy : s.busy = true := (busy_true_iff s).2 hpend
  have hw : wordAccess off .four = true := (wordAccess_iff off .four).2 hword
  have hr : (regAt off).isData = true := (regOfByte_isData_iff off.toNat).2 hoff
  simp [transact, busRead, busValue_word hw, regValue_busy hr hbusy, takesDraw_data hw hr, hbusy]

end Sys2Proof.Stated
end

section
/-! SUPPORT. The fields of STATUS and the turns of the two agents. -/

namespace Sys2Proof.Stated

open Sys2Proof.Machine

/-- Settles O42: the three flags at their bits, then each field of several bits, bit by bit. -/
theorem statusFieldsStandAtTheirBits : Obligations.StatusFieldsStandAtTheirBits := by
  intro s
  rw [← busy_true_iff]
  refine ⟨?_, ?_, ?_, ?_, ?_, ?_, ?_⟩
  · simp [statusWord]
  · simp [statusWord]
  · simp [statusWord]
  all_goals
    ext k hk
    interval_cases k <;> simp [statusWord]

/-- Settles O6: the turn at the head says who moves, and the engine is idle where PEND holds no command. -/
theorem oneAgentMovesInOneStep : Obligations.OneAgentMovesInOneStep :=
  ⟨fun _ _ _ => rfl, fun _ _ => rfl, fun s h => by simp [step, h], fun _ h => engineStep_idle h⟩

end Sys2Proof.Stated
end

section
/-! SUPPORT. A command from its acceptance to its completion: a relation of two runs by its micro-steps, the registers it
leaves alone, and that what it writes depends on what it reads only. -/

namespace Sys2Proof.Stated

open Sys2Proof.Machine

/-! ## Micro-steps in a row -/

theorem lat_pos {i : Instr} (hi : i ≠ .softReset) : 0 < lat i := by
  revert hi
  cases i <;> decide

theorem lat_le (i : Instr) : lat i ≤ 66 := by
  cases i <;> decide

/-- A counter that does not wrap counts on by one. -/
theorem toNat_countOn {w m : Nat} {x : BitVec (w + 1)} (hm : x.toNat = m) (h : m + 1 < 2 ^ (w + 1)) :
    (x + 1).toNat = m + 1 := by
  subst hm
  simpa using BitVec.toNat_add_of_lt (x := x) (y := 1) (by simpa using h)

/-- A run that goes on begins with micro-step STEP, which leaves STEP to the sequencing, and goes on from there. -/
theorem engineRun_succ_next {i : Instr} {k : Nat} {s t : State} (h : engineRun i (microStep i) (k + 1) s = .next t) :
    ∃ u, microStep i s.stepCtr.toNat s = .next u ∧ u.stepCtr = s.stepCtr ∧
      engineRun i (microStep i) k (advance i u) = .next t := by
  rw [engineRun_succ, andThen_eq_next] at h
  obtain ⟨w, hw, hrun⟩ := h
  obtain ⟨-, u, hu, rfl⟩ := (engineTick_eq_next i _ s w).1 hw
  obtain ⟨-, hun, -⟩ := microStep_frame hu
  exact ⟨u, hu, hun, hrun⟩

section
variable {i : Instr} {R : Nat → State → State → Prop}
  (hmicro : ∀ {n v v' u u'}, R n v v' → microStep i n v = .next u → microStep i n v' = .next u' → R (n + 1) u u')
  (hcount : ∀ {n v v'} c, R n v v' → R n { v with stepCtr := c } { v' with stepCtr := c })
include hmicro hcount

/-- Two runs of command i over its last k + 1 micro-steps: a relation that every micro-step keeps, and that does not look at
STEP, holds of the two states that complete. -/
theorem engineRun_rel {k : Nat} {s s' t t' : State} (hk : s.stepCtr.toNat + (k + 1) = lat i)
    (hstep : s'.stepCtr = s.stepCtr) (hR : R s.stepCtr.toNat s s')
    (ht : engineRun i (microStep i) (k + 1) s = .next t) (ht' : engineRun i (microStep i) (k + 1) s' = .next t') :
    ∃ u u', R (lat i) u u' ∧ t = complete u ∧ t' = complete u' := by
  have hlat := lat_le i
  induction k generalizing s s' with
  | zero =>
    obtain ⟨u, hu, hun, hrun⟩ := engineRun_succ_next ht
    obtain ⟨u', hu', hun', hrun'⟩ := engineRun_succ_next ht'
    rw [advance_last (by rw [hun]; exact hk)] at hrun
    rw [advance_last (by rw [hun', hstep]; exact hk)] at hrun'
    cases hrun; cases hrun'
    exact ⟨u, u', hk ▸ hmicro hR hu (hstep ▸ hu'), rfl, rfl⟩
  | succ k ih =>
    obtain ⟨u, hu, hun, hrun⟩ := engineRun_succ_next ht
    obtain ⟨u', hu', hun', hrun'⟩ := engineRun_succ_next ht'
    have hcount' : u'.stepCtr = u.stepCtr := by rw [hun, hun', hstep]
    have hnext : (u.stepCtr + 1).toNat = s.stepCtr.toNat + 1 := toNat_countOn (by rw [hun]) (by omega)
    have hRu : R (s.stepCtr.toNat + 1) u u' := hmicro hR hu (hstep ▸ hu')
    rw [advance_more (by rw [hun]; omega)] at hrun
    rw [advance_more (by rw [hcount', hun]; omega), hcount'] at hrun'
    refine ih ?_ ?_ ?_ hrun hrun'
    · simp only [hnext]; omega
    · rfl
    · simp only [hnext]; exact hcount _ hRu

/-- Two runs of a whole command from idle states: the relation holds of the two states that complete. -/
theorem exec_rel {s s' t t' : State} (hi : i ≠ .softReset) (hs : s.pend = none) (hs' : s'.pend = none)
    (hR : R 0 (accept i s) (accept i s')) (ht : exec i s = .next t) (ht' : exec i s' = .next t') :
    ∃ u u', R (lat i) u u' ∧ t = complete u ∧ t' = complete u' := by
  obtain ⟨k, hk⟩ : ∃ k, lat i = k + 1 := Nat.exists_eq_succ_of_ne_zero (lat_pos hi).ne'
  rw [exec_eq_runCommand hi, runCommand_idle hs, hk] at ht
  rw [exec_eq_runCommand hi, runCommand_idle hs', hk] at ht'
  refine engineRun_rel hmicro hcount ?_ ?_ ?_ ht ht'
  · simp [hk]
  · rfl
  · exact hR

end

/-! ## The footprint of a command -/

/-- t is s but for STATUS.DONE, LASTOP, the sequencing, the hidden registers and the data registers that command i writes
(spec/10_state.md R41). -/
structure KeepsFrame (i : Instr) (s t : State) : Prop where
  h : i ∉ [.shaInit, .shaCompress] → t.h = s.h
  buf : i ≠ .bufClear → t.buf = s.buf
  a : i ∉ [.kecInit, .kecPermute, .kecAbsorb] → t.a = s.a
  digest : i ∉ [.digSha, .digKec] → t.digest = s.digest
  hex : i ≠ .hexEnc → t.hex = s.hex
  err : t.err = s.err
  errcode : t.errcode = s.errcode
  draws : t.draws = s.draws
  rdata : t.rdata = s.rdata
  turns : t.turns = s.turns

theorem keepsFrame_refl (i : Instr) (s : State) : KeepsFrame i s s := by
  constructor <;> simp

theorem keepsFrame_trans {i : Instr} {s t u : State} (hst : KeepsFrame i s t) (htu : KeepsFrame i t u) :
    KeepsFrame i s u where
  h hi := (htu.h hi).trans (hst.h hi)
  buf hi := (htu.buf hi).trans (hst.buf hi)
  a hi := (htu.a hi).trans (hst.a hi)
  digest hi := (htu.digest hi).trans (hst.digest hi)
  hex hi := (htu.hex hi).trans (hst.hex hi)
  err := htu.err.trans hst.err
  errcode := htu.errcode.trans hst.errcode
  draws := htu.draws.trans hst.draws
  rdata := htu.rdata.trans hst.rdata
  turns := htu.turns.trans hst.turns

/-- A Keccak round writes A and IR. -/
theorem kecRoundStep_data {s t : State} (h : kecRoundStep s = .next t) :
    t.h = s.h ∧ t.buf = s.buf ∧ t.digest = s.digest ∧ t.hex = s.hex := by
  obtain ⟨-, rfl⟩ := (kecRoundStep_eq_next s t).1 h
  simp

/-- No micro-step writes a data register outside the footprint of its command. -/
theorem microStep_keepsFrame {i : Instr} {n : Nat} {s t : State} (h : microStep i n s = .next t) : KeepsFrame i s t := by
  obtain ⟨-, -, -, he, hc, -, hdraws, hrdata, hturns⟩ := microStep_frame h
  have hdata : (i ∉ [.shaInit, .shaCompress] → t.h = s.h) ∧ (i ≠ .bufClear → t.buf = s.buf) ∧
      (i ∉ [.kecInit, .kecPermute, .kecAbsorb] → t.a = s.a) ∧ (i ∉ [.digSha, .digKec] → t.digest = s.digest) ∧
      (i ≠ .hexEnc → t.hex = s.hex) := by
    cases i with
    | nop | shaInit | kecInit | digSha | digKec | hexEnc | bufClear => cases h; simp
    | softReset => cases h
    | shaCompress =>
      simp only [microStep, shaCompressMicro] at h
      split_ifs at h
      · cases h; simp [shaLoad]
      · obtain ⟨-, rfl⟩ := (shaRoundStep_eq_next s t).1 h; simp
      · cases h; simp [shaFinish]
    | kecPermute =>
      simp only [microStep, kecPermuteMicro] at h
      split_ifs at h
      · simpa using kecRoundStep_data h
      · simpa using kecRoundStep_data h
    | kecAbsorb =>
      simp only [microStep, kecAbsorbMicro] at h
      split_ifs at h
      · cases h; simp [kecXorStep]
      · simpa using kecRoundStep_data h
  obtain ⟨hh, hbuf, ha, hdig, hhex⟩ := hdata
  exact ⟨hh, hbuf, ha, hdig, hhex, he, hc, hdraws, hrdata, hturns⟩

/-- A command that goes on from an idle state completes, and leaves its frame as it was accepted. -/
theorem exec_idle_keepsFrame {i : Instr} {s t : State} (hi : i ≠ .softReset) (hs : s.pend = none)
    (ht : exec i s = .next t) : ∃ u, KeepsFrame i (accept i s) u ∧ t = complete u := by
  obtain ⟨u, -, hu, htu, -⟩ := exec_rel (R := fun _ v _ => KeepsFrame i (accept i s) v)
    (fun hv h _ => keepsFrame_trans hv (microStep_keepsFrame h)) (fun _ hv => { hv with }) hi hs hs
    (keepsFrame_refl i _) ht ht
  exact ⟨u, hu, htu⟩

/-! ## What a command writes is a function of what it reads -/

/-- Two states agree on the data registers that command i reads (spec/10_state.md R41). -/
@[simp] def ReadsAgree (i : Instr) (s s' : State) : Prop :=
  match i with
  | .shaCompress => s.h = s'.h ∧ ∀ j : Fin 64, s.buf[j.val] = s'.buf[j.val]
  | .kecPermute => s.a = s'.a
  | .kecAbsorb => s.a = s'.a ∧ s.buf = s'.buf
  | .digSha => s.h = s'.h
  | .digKec => ∀ k : Fin 4, s.a[k.val] = s'.a[k.val]
  | .hexEnc => s.digest = s'.digest
  | .nop | .shaInit | .kecInit | .bufClear | .softReset => True

/-- Two states agree on the data registers that command i writes (spec/10_state.md R41). -/
@[simp] def WritesAgree (i : Instr) (s s' : State) : Prop :=
  match i with
  | .shaInit | .shaCompress => s.h = s'.h
  | .kecInit | .kecPermute | .kecAbsorb => s.a = s'.a
  | .digSha | .digKec => s.digest = s'.digest
  | .hexEnc => s.hex = s'.hex
  | .bufClear => s.buf = s'.buf
  | .nop | .softReset => True

/-- Two states agree on the hidden registers that command i works in (spec/10_state.md R37, R39). -/
@[simp] def HiddenAgree (i : Instr) (s s' : State) : Prop :=
  match i with
  | .shaCompress => s.ws = s'.ws ∧ s.v = s'.v ∧ s.t = s'.t
  | .kecPermute | .kecAbsorb => s.ir = s'.ir
  | .nop | .shaInit | .kecInit | .digSha | .digKec | .hexEnc | .bufClear | .softReset => True

/-- Before micro-step n two runs of command i agree on what it reads and, once it has begun, on what it writes and works in. -/
@[simp] def RunsAgree (i : Instr) (n : Nat) (s s' : State) : Prop :=
  ReadsAgree i s s' ∧ (1 ≤ n → WritesAgree i s s' ∧ HiddenAgree i s s')

/-- The SHA-256 view of BUF is of its first 64 bytes (spec/10_state.md R31). -/
theorem blockWords_congr {b b' : Vector Byte 136} (h : ∀ j : Fin 64, b[j.val] = b'[j.val]) : blockWords b = blockWords b' := by
  ext k hk
  have hb (m : Nat) (hm : m < 64) : b[m] = b'[m] := h ⟨m, hm⟩
  simp [blockWords, hb (4 * k) (by omega), hb (4 * k + 1) (by omega), hb (4 * k + 2) (by omega), hb (4 * k + 3) (by omega)]

/-- DIG_KEC serializes lanes 0 to 3 of A (spec/43_digest_hex.md R404). -/
theorem serializeA_congr {a a' : Vector Lane 25} (h : ∀ k : Fin 4, a[k.val] = a'[k.val]) : serializeA a = serializeA a' := by
  ext j hj
  have ha : a[j / 8] = a'[j / 8] := h ⟨j / 8, by omega⟩
  simp [serializeA, ha]

theorem shaLoad_agree {s s' : State} (hR : ReadsAgree .shaCompress s s') :
    RunsAgree .shaCompress 1 (shaLoad s) (shaLoad s') := by
  obtain ⟨hh, hb⟩ := hR
  have hm := blockWords_congr hb
  simp [shaLoad, hh, hm, hb]

theorem shaRoundStep_agree {s s' u u' : State} (hR : ReadsAgree .shaCompress s s') (hH : HiddenAgree .shaCompress s s')
    (h : shaRoundStep s = .next u) (h' : shaRoundStep s' = .next u') (n : Nat) : RunsAgree .shaCompress n u u' := by
  obtain ⟨hh, hb⟩ := hR
  obtain ⟨hws, hv, ht⟩ := hH
  obtain ⟨-, rfl⟩ := (shaRoundStep_eq_next s u).1 h
  obtain ⟨-, rfl⟩ := (shaRoundStep_eq_next s' u').1 h'
  simp [hh, hb, hws, hv, ht]

theorem shaFinish_agree {s s' : State} (hR : ReadsAgree .shaCompress s s') (hH : HiddenAgree .shaCompress s s') (n : Nat) :
    RunsAgree .shaCompress n (shaFinish s) (shaFinish s') := by
  obtain ⟨hh, hb⟩ := hR
  obtain ⟨hws, hv, ht⟩ := hH
  simp [shaFinish, hh, hb, hws, hv, ht]

/-- A Keccak round writes A and IR, from A and IR. -/
theorem kecRoundStep_agree {s s' u u' : State} (ha : s.a = s'.a) (hir : s.ir = s'.ir)
    (h : kecRoundStep s = .next u) (h' : kecRoundStep s' = .next u') : u.a = u'.a ∧ u.ir = u'.ir := by
  obtain ⟨-, rfl⟩ := (kecRoundStep_eq_next s u).1 h
  obtain ⟨-, rfl⟩ := (kecRoundStep_eq_next s' u').1 h'
  simp [ha, hir]

/-- What a micro-step writes is a function of what its command reads. -/
theorem microStep_agree {i : Instr} {n : Nat} {s s' u u' : State} (hR : RunsAgree i n s s') (h : microStep i n s = .next u)
    (h' : microStep i n s' = .next u') : RunsAgree i (n + 1) u u' := by
  obtain ⟨hr, hk⟩ := hR
  cases i with
  | softReset => cases h
  | nop =>
    exact ⟨trivial, fun _ => ⟨trivial, trivial⟩⟩
  | shaInit | kecInit | bufClear =>
    cases h; cases h'
    simp
  | digSha =>
    cases h; cases h'
    have hh : s.h = s'.h := hr
    simp [hh]
  | digKec =>
    cases h; cases h'
    have ha : ∀ k : Fin 4, s.a[k.val] = s'.a[k.val] := hr
    simp [ha, serializeA_congr ha]
  | hexEnc =>
    cases h; cases h'
    have hd : s.digest = s'.digest := hr
    simp [hd]
  | shaCompress =>
    simp only [microStep, shaCompressMicro] at h h'
    split_ifs at h h' with h0
    · cases h; cases h'
      rw [h0]
      exact shaLoad_agree hr
    · exact shaRoundStep_agree hr (hk (by omega)).2 h h' _
    · cases h; cases h'
      exact shaFinish_agree hr (hk (by omega)).2 _
  | kecPermute =>
    simp only [microStep, kecPermuteMicro] at h h'
    split_ifs at h h'
    · obtain ⟨ha, hir⟩ := kecRoundStep_agree (s := { s with ir := 0 }) (s' := { s' with ir := 0 }) hr rfl h h'
      exact ⟨ha, fun _ => ⟨ha, hir⟩⟩
    · obtain ⟨ha, hir⟩ := kecRoundStep_agree hr (hk (by omega)).2 h h'
      exact ⟨ha, fun _ => ⟨ha, hir⟩⟩
  | kecAbsorb =>
    obtain ⟨ha, hb⟩ := hr
    simp only [microStep, kecAbsorbMicro] at h h'
    split_ifs at h h'
    · cases h; cases h'
      simp [kecXorStep, ha, hb]
    · obtain ⟨ha', hir'⟩ := kecRoundStep_agree ha (hk (by omega)).2 h h'
      obtain ⟨-, hub, -⟩ := kecRoundStep_data h
      obtain ⟨-, hub', -⟩ := kecRoundStep_data h'
      exact ⟨⟨ha', by rw [hub, hub', hb]⟩, fun _ => ⟨ha', hir'⟩⟩

theorem runsAgree_withStep {i : Instr} {n : Nat} {s s' : State} (c : BitVec 7) (h : RunsAgree i n s s') :
    RunsAgree i n { s with stepCtr := c } { s' with stepCtr := c } := by
  cases i <;> exact h

theorem writesAgree_complete {i : Instr} {s s' : State} (h : WritesAgree i s s') :
    WritesAgree i (complete s) (complete s') := by
  cases i <;> exact h

/-- Two whole runs of a command from states that agree on what it reads agree on what it wrote. -/
theorem exec_agree {i : Instr} {s s' t t' : State} (hi : i ≠ .softReset) (hs : s.pend = none) (hs' : s'.pend = none)
    (ht : exec i s = .next t) (ht' : exec i s' = .next t') (hR : ReadsAgree i s s') : WritesAgree i t t' := by
  have h0 : RunsAgree i 0 (accept i s) (accept i s') := ⟨by cases i <;> exact hR, fun h => absurd h (by decide)⟩
  obtain ⟨u, u', ⟨-, hw⟩, rfl, rfl⟩ := exec_rel microStep_agree runsAgree_withStep hi hs hs' h0 ht ht'
  exact writesAgree_complete (hw (lat_pos hi)).1

/-- After a command that ran, the hidden registers hold the second of its two draws. -/
theorem exec_idle_hidden {i : Instr} {s t : State} (hi : i ≠ .softReset) (hs : s.pend = none) (ht : exec i s = .next t) :
    t.draws = s.draws + 2 ∧ (∀ j : Fin 16, t.ws[j] = Config.drawWS (s.draws + 1) j) ∧
      (∀ j : Fin 8, t.v[j] = Config.drawV (s.draws + 1) j) ∧ t.t = Config.drawT (s.draws + 1) ∧
      t.ir = Config.drawIR (s.draws + 1) := by
  obtain ⟨u, hu, rfl⟩ := exec_idle_keepsFrame hi hs ht
  have hd : u.draws = s.draws + 1 := hu.draws
  simp [hd]

/-- Settles O25: the frame is an invariant of one run; that what is written depends on what is read only, a relation of two. -/
theorem commandsKeepTheirFootprint : Obligations.CommandsKeepTheirFootprint := by
  constructor
  · intro i s t hi ht
    by_cases hs : s.pend = none
    · have hhidden := exec_idle_hidden hi hs ht
      obtain ⟨u, hu, rfl⟩ := exec_idle_keepsFrame hi hs ht
      exact ⟨hu.h, hu.buf, hu.a, hu.digest, hu.hex, hu.rdata, hu.turns, (absurd hs ·), fun _ => hhidden⟩
    · rw [exec_busy hi hs] at ht
      cases ht
      simp [hs]
  · intro i s s' t t' hi hs hs' ht ht'
    have hrun := exec_agree hi hs hs' ht ht'
    refine ⟨?_, ?_, ?_, ?_, ?_, ?_, ?_, ?_, ?_⟩
    · rintro rfl; exact hrun trivial
    · rintro rfl hh hb; exact hrun ⟨hh, hb⟩
    · rintro rfl; exact hrun trivial
    · rintro rfl ha; exact hrun ha
    · rintro rfl ha hb; exact hrun ⟨ha, hb⟩
    · rintro rfl hh; exact hrun hh
    · rintro rfl ha; exact hrun ha
    · rintro rfl hd; exact hrun hd
    · rintro rfl; exact hrun trivial

end Sys2Proof.Stated
end

section
/-! SUPPORT. The invariant of PEND, STEP, T, IR and the STATUS fields, operation by operation. -/

namespace Sys2Proof.Stated

open Sys2Proof.Machine

/-! ## The invariant, from its parts -/

/-- ERRCODE agrees with ERR and ranges over the codes of spec/60_exceptions.md R600: the part of Inv on the two fields. -/
def CodeAgrees (err : Bool) (code : Byte) : Prop :=
  (err = false ↔ code = 0) ∧ code.toNat ≤ 6

theorem codeAgrees_of_inv {s : State} (hs : Inv s) : CodeAgrees s.err s.errcode :=
  ⟨hs.err_code, hs.code_range⟩

theorem codeAgrees_cleared : CodeAgrees false 0 := by
  simp [CodeAgrees]

theorem codeAgrees_recordError (e : ErrorCode) {s : State} (h : CodeAgrees s.err s.errcode) :
    CodeAgrees (recordError e s).err (recordError e s).errcode := by
  obtain ⟨-, he⟩ | ⟨-, he⟩ := recordError_cases e s
  · rwa [he]
  · rw [he]
    exact ⟨iff_of_false Bool.noConfusion e.code_pos, e.code_le⟩

theorem codeAgrees_statusWrite (v : Word) {s : State} (h : CodeAgrees s.err s.errcode) :
    CodeAgrees (statusWrite v s).err (statusWrite v s).errcode := by
  rw [statusWrite_err, statusWrite_errcode]
  split
  · exact codeAgrees_cleared
  · exact h

/-- What T or IR is before micro-step n ≥ 1 of command i (spec/41_sha256.md R212, spec/42_keccak.md R313). -/
@[simp] def CounterAgrees (i : Instr) (n : Nat) (s : State) : Prop :=
  match i with
  | .shaCompress => s.t.toNat + 1 = n
  | .kecPermute => s.ir.toNat = n
  | .kecAbsorb => s.ir.toNat + 1 = n
  | .nop | .shaInit | .kecInit | .digSha | .digKec | .hexEnc | .bufClear | .softReset => True

theorem counterAgrees_of_inv {s : State} {i : Instr} (hs : Inv s) (hp : s.pend = some i) (hn : 1 ≤ s.stepCtr.toNat) :
    CounterAgrees i s.stepCtr.toNat s := by
  cases i with
  | shaCompress => exact hs.sha_counter hp hn
  | kecPermute => exact hs.permute_index hp hn
  | kecAbsorb => exact hs.absorb_index hp hn
  | nop | shaInit | kecInit | digSha | digKec | hexEnc | bufClear | softReset => trivial

/-- An idle state has the invariant where STEP is 0 and ERRCODE agrees with ERR. -/
theorem inv_of_idle {s : State} (hp : s.pend = none) (hn : s.stepCtr = 0) (hc : CodeAgrees s.err s.errcode) : Inv s where
  pending_step := by simp [hp]
  pending_status := by simp [hp]
  idle_step _ := hn
  sha_counter := by simp [hp]
  permute_index := by simp [hp]
  absorb_index := by simp [hp]
  err_code := hc.1
  code_range := hc.2

/-- A state with command i pending has the invariant where STEP names a micro-step of i, DONE and LASTOP are those of i, and
the counter of i agrees with STEP. -/
theorem inv_of_pending {s : State} {i : Instr} (hp : s.pend = some i) (hi : i ≠ .softReset) (hn : s.stepCtr.toNat < lat i)
    (hd : s.done = false) (ho : s.lastop = i.opcode) (hk : 1 ≤ s.stepCtr.toNat → CounterAgrees i s.stepCtr.toNat s)
    (hc : CodeAgrees s.err s.errcode) : Inv s where
  pending_step j hj := by
    obtain rfl : i = j := by simpa [hp] using hj
    exact ⟨hi, hn⟩
  pending_status j hj := by
    obtain rfl : i = j := by simpa [hp] using hj
    exact ⟨hd, ho⟩
  idle_step h := by simp [hp] at h
  sha_counter h := by
    obtain rfl : i = .shaCompress := by simpa [hp] using h
    exact hk
  permute_index h := by
    obtain rfl : i = .kecPermute := by simpa [hp] using h
    exact hk
  absorb_index h := by
    obtain rfl : i = .kecAbsorb := by simpa [hp] using h
    exact hk
  err_code := hc.1
  code_range := hc.2

/-- The invariant looks only at PEND, STEP, LASTOP, T, IR, ERR and ERRCODE, and at DONE only while it is 0. -/
theorem inv_of_sameControl {s t : State} (hs : Inv s)
    (hkeep : t.pend = s.pend ∧ t.stepCtr = s.stepCtr ∧ t.lastop = s.lastop ∧ t.t = s.t ∧ t.ir = s.ir)
    (hd : s.done = false → t.done = false) (hc : CodeAgrees t.err t.errcode) : Inv t := by
  obtain ⟨hp, hn, ho, ht, hir⟩ := hkeep
  exact {
    pending_step := by rw [hp, hn]; exact hs.pending_step
    pending_status := fun i hi => by
      obtain ⟨hdone, hop⟩ := hs.pending_status i (hp ▸ hi)
      exact ⟨hd hdone, ho.trans hop⟩
    idle_step := by rw [hp, hn]; exact hs.idle_step
    sha_counter := by rw [hp, hn, ht]; exact hs.sha_counter
    permute_index := by rw [hp, hn, hir]; exact hs.permute_index
    absorb_index := by rw [hp, hn, hir]; exact hs.absorb_index
    err_code := hc.1
    code_range := hc.2 }

/-- What keeps the fields of the control state keeps the invariant. -/
theorem inv_of_keepsControl {s t : State} (hs : Inv s)
    (hkeep : t.pend = s.pend ∧ t.stepCtr = s.stepCtr ∧ t.lastop = s.lastop ∧ t.t = s.t ∧ t.ir = s.ir ∧ t.done = s.done ∧
      t.err = s.err ∧ t.errcode = s.errcode) : Inv t := by
  obtain ⟨hp, hn, ho, ht, hir, hd, he, hc⟩ := hkeep
  exact inv_of_sameControl hs ⟨hp, hn, ho, ht, hir⟩ (hd.trans ·) (by rw [he, hc]; exact codeAgrees_of_inv hs)

/-! ## Every operation keeps it -/

theorem inv_recordError (e : ErrorCode) {s : State} (hs : Inv s) : Inv (recordError e s) :=
  inv_of_sameControl hs (by simp) (by simp) (codeAgrees_recordError e (codeAgrees_of_inv hs))

theorem inv_statusWrite (v : Word) {s : State} (hs : Inv s) : Inv (statusWrite v s) :=
  inv_of_sameControl hs (by simp) (by simp +contextual) (codeAgrees_statusWrite v (codeAgrees_of_inv hs))

theorem inv_busRead (off : Offset) (size : Size) {s : State} (hs : Inv s) : Inv (busRead off size s) :=
  inv_of_keepsControl hs (by simp)

theorem inv_withTurns (q : List Turn) {s : State} (hs : Inv s) : Inv { s with turns := q } :=
  inv_of_keepsControl hs (by simp)

theorem inv_resetState (s : State) : Inv (resetState s) :=
  inv_of_idle rfl rfl codeAgrees_cleared

theorem inv_complete {s : State} (hc : CodeAgrees s.err s.errcode) : Inv (complete s) :=
  inv_of_idle rfl rfl hc

theorem inv_accept {i : Instr} {s : State} (hi : i ≠ .softReset) (hs : Inv s) : Inv (accept i s) :=
  have hc := codeAgrees_of_inv hs
  inv_of_pending rfl hi (lat_pos hi) rfl rfl (fun h => absurd h (by simp)) hc

/-- A word has one meaning: it decodes to the command whose word it is (spec/30_encoding.md R104). -/
theorem encode_of_decode {c : Word} {i : Instr} (h : decode c = .ok i) : encode i = c := by
  have hc : c.extractLsb' 8 24 ++ c.extractLsb' 0 8 = c := BitVec.extractLsb'_append_extractLsb'
  unfold decode at h
  split at h
  next hrsv =>
    split at h
    next j hj =>
      cases h
      rw [hrsv, (decodeOpcode_eq_some _ _).1 hj] at hc
      rw [← hc, encode]
      exact BitVec.setWidth_eq_append (by decide)
    next => cases h
  next => cases h

theorem inv_commandWrite (c : Word) {s : State} (hs : Inv s) : Inv (commandWrite c s) := by
  obtain ⟨-, h⟩ | ⟨-, -, h⟩ | ⟨i, hc, -, hd, h⟩ | ⟨e, -, -, -, h⟩ := commandWrite_cases c s
  · rw [h]; exact inv_resetState s
  · rw [h]; exact inv_recordError _ hs
  · have hi : i ≠ .softReset := by
      rintro rfl
      exact hc (encode_of_decode hd).symm
    rw [h]; exact inv_accept hi hs
  · rw [h]; exact inv_recordError _ hs

/-- A write to a data register keeps the invariant, since the store does. -/
theorem inv_dataWrite {f : State → State} {s : State} (hs : Inv s) (hf : Inv (f s)) : Inv (dataWrite f s) := by
  obtain ⟨-, h⟩ | ⟨-, h⟩ := dataWrite_cases f s
  · rwa [h]
  · rw [h]; exact inv_recordError _ hs

theorem inv_regWrite (r : Reg) (v : Word) {s : State} (hs : Inv s) : Inv (regWrite r v s) := by
  cases r with
  | id | hw | unmapped => exact inv_recordError _ hs
  | status => exact inv_statusWrite v hs
  | cmd => exact inv_commandWrite v hs
  | h | bufw | aLow | aHigh | dw =>
    rw [regWrite]
    exact inv_dataWrite hs (inv_of_keepsControl hs (by simp))

theorem inv_busWrite (off : Offset) (size : Size) (v : Word) {s : State} (hs : Inv s) : Inv (busWrite off size v s) := by
  cases hw : wordAccess off size with
  | true => rw [busWrite_word hw]; exact inv_regWrite _ v hs
  | false => rw [busWrite_bad hw]; exact inv_recordError _ hs

theorem inv_transact (x : Transaction) {s : State} (hs : Inv s) : Inv (transact x s) := by
  cases x with
  | read off size => exact inv_busRead off size hs
  | write off size v => exact inv_busWrite off size v hs

/-! ## The engine keeps it -/

/-- A micro-step moves the counter of its command on with STEP: micro-step 0 sets it, a round adds one to it. -/
theorem microStep_counter {i : Instr} {n : Nat} {s u : State} (h : microStep i n s = .next u) (hn : n + 1 < lat i)
    (hk : 1 ≤ n → CounterAgrees i n s) : CounterAgrees i (n + 1) u := by
  cases i with
  | nop | shaInit | kecInit | digSha | digKec | hexEnc | bufClear | softReset => trivial
  | shaCompress =>
    simp only [lat] at hn
    simp only [microStep, shaCompressMicro] at h
    split at h
    next hz => cases h; simp [shaLoad, hz]
    next hz =>
      rw [if_pos (by omega)] at h
      obtain ⟨ht, rfl⟩ := (shaRoundStep_eq_next s u).1 h
      have hT : s.t.toNat + 1 = n := hk (by omega)
      show (s.t + 1).toNat + 1 = n + 1
      rw [toNat_countOn rfl (by omega), hT]
  | kecPermute =>
    simp only [microStep, kecPermuteMicro] at h
    split at h
    next hz =>
      obtain ⟨-, rfl⟩ := (kecRoundStep_eq_next _ u).1 h
      simp [hz]
    next hz =>
      obtain ⟨hr, rfl⟩ := (kecRoundStep_eq_next s u).1 h
      have hIR : s.ir.toNat = n := hk (by omega)
      show (s.ir + 1).toNat = n + 1
      rw [toNat_countOn rfl (by omega), hIR]
  | kecAbsorb =>
    simp only [microStep, kecAbsorbMicro] at h
    split at h
    next hz => cases h; simp [kecXorStep, hz]
    next hz =>
      obtain ⟨hr, rfl⟩ := (kecRoundStep_eq_next s u).1 h
      have hIR : s.ir.toNat + 1 = n := hk (by omega)
      show (s.ir + 1).toNat + 1 = n + 1
      rw [toNat_countOn rfl (by omega), hIR]

theorem inv_engineStep {s t : State} (hs : Inv s) (h : engineStep s = .next t) : Inv t := by
  cases hp : s.pend with
  | none =>
    rw [engineStep_idle hp] at h
    cases h; exact hs
  | some i =>
    rw [engineStep_pending hp] at h
    obtain ⟨hlt, u, hu, rfl⟩ := (engineTick_eq_next i _ s t).1 h
    obtain ⟨hup, hun, hud, hue, huc, huo, -⟩ := microStep_frame hu
    have hc : CodeAgrees u.err u.errcode := by rw [hue, huc]; exact codeAgrees_of_inv hs
    by_cases hlast : s.stepCtr.toNat + 1 = lat i
    · rw [advance_last (by rwa [hun])]
      exact inv_complete hc
    · obtain ⟨hi, -⟩ := hs.pending_step i hp
      obtain ⟨hd, ho⟩ := hs.pending_status i hp
      have hlat := lat_le i
      have hnext : (u.stepCtr + 1).toNat = s.stepCtr.toNat + 1 := toNat_countOn (by rw [hun]) (by omega)
      have hk : CounterAgrees i (u.stepCtr + 1).toNat u := by
        rw [hnext]
        exact microStep_counter hu (by omega) (counterAgrees_of_inv hs hp)
      rw [advance_more (by rwa [hun])]
      exact inv_of_pending (hup.trans hp) hi (by simp only [hnext]; omega) (hud.trans hd) (huo.trans ho) (fun _ => hk) hc

/-! ## Every step keeps it -/

theorem inv_exec {i : Instr} {s t : State} (hs : Inv s) (h : exec i s = .next t) : Inv t := by
  by_cases hi : i = .softReset
  · subst hi
    cases h
    exact inv_resetState s
  · by_cases hp : s.pend = none
    · obtain ⟨u, hu, rfl⟩ := exec_idle_keepsFrame hi hp h
      refine inv_complete ?_
      rw [hu.err, hu.errcode, accept_err, accept_errcode]
      exact codeAgrees_of_inv hs
    · rw [exec_busy hi hp] at h
      cases h
      exact inv_recordError _ hs

theorem inv_pollStatus (rest : List Turn) {s : State} (hs : Inv s) : Inv (pollStatus rest s) :=
  inv_withTurns _ (inv_busRead _ _ hs)

theorem inv_rejectIllegal {s : State} (hs : Inv s) : Inv (rejectIllegal s) :=
  inv_recordError _ hs

/-- Settles O52, turn by turn: each agent's move keeps the invariant. -/
theorem everyStepKeepsTheInvariant : Obligations.EveryStepKeepsTheInvariant := by
  intro s t hs h
  have hq (q : List Turn) : Inv { s with turns := q } := inv_withTurns q hs
  unfold step at h
  split at h
  next => exact inv_engineStep hs h
  next x rest _ => cases h; exact inv_transact x (hq rest)
  next rest _ => exact inv_engineStep (hq rest) h
  next rest _ => cases h; exact inv_pollStatus rest hs
  next rest _ => cases h; exact inv_resetState _
  next c rest _ =>
    split at h
    next i _ => exact inv_exec (hq rest) h
    next => cases h; exact inv_rejectIllegal (hq rest)

end Sys2Proof.Stated
end

section
/-! SUPPORT. The register map, read backwards: which bytes of the window each register takes up, and the aligned words of an
array of registers. -/

namespace Sys2Proof.Stated

open Sys2Proof.Machine

/-- The bytes of the window that a register takes up (spec/20_memory.md R62). -/
def Spans (r : Reg) (n : Nat) : Prop :=
  match r with
  | .id => n < 0x004
  | .cmd => 0x004 ≤ n ∧ n < 0x008
  | .status => 0x008 ≤ n ∧ n < 0x00C
  | .h i => 0x040 + 4 * i.val ≤ n ∧ n < 0x044 + 4 * i.val
  | .bufw k => 0x080 + 4 * k.val ≤ n ∧ n < 0x084 + 4 * k.val
  | .aLow i => 0x200 + 8 * i.val ≤ n ∧ n < 0x204 + 8 * i.val
  | .aHigh i => 0x204 + 8 * i.val ≤ n ∧ n < 0x208 + 8 * i.val
  | .dw k => 0x300 + 4 * k.val ≤ n ∧ n < 0x304 + 4 * k.val
  | .hw k => 0x340 + 4 * k.val ≤ n ∧ n < 0x344 + 4 * k.val
  | .unmapped => IsUnmapped n

/-- The register that holds a byte takes it up. -/
theorem regOfByte_spans (n : Nat) : Spans (regOfByte n) n := by
  unfold regOfByte
  split_ifs <;> simp only [Spans, IsUnmapped] <;> omega

theorem regAt_unmapped {off : Offset} (h : IsUnmapped off.toNat) : regAt off = .unmapped := by
  have hs := regOfByte_spans off.toNat
  unfold regAt
  cases hr : regOfByte off.toNat with
  | unmapped => rfl
  | id | cmd | status | h | bufw | aLow | aHigh | dw | hw => simp only [hr, Spans, IsUnmapped] at hs h; omega

theorem regAt_hex {off : Offset} (h : IsHex off.toNat) : ∃ k, regAt off = .hw k := by
  have hs := regOfByte_spans off.toNat
  unfold regAt
  cases hr : regOfByte off.toNat with
  | hw k => exact ⟨k, rfl⟩
  | id | cmd | status | h | bufw | aLow | aHigh | dw | unmapped =>
    simp only [hr, Spans, IsUnmapped, IsHex] at hs h; omega

/-- At the offset of a writable data register stands a data register, and not HEX. -/
theorem regAt_writableData {off : Offset} (h : IsWritableData off.toNat) :
    (regAt off).isData = true ∧ ∀ k, regAt off ≠ .hw k := by
  refine ⟨(regOfByte_isData_iff _).2 (.inl h), fun k hk => ?_⟩
  have hs := regOfByte_spans off.toNat
  rw [show regOfByte off.toNat = .hw k from hk] at hs
  simp only [Spans, IsWritableData] at hs h
  omega

/-! ## Aligned words of an array -/

section
variable {base n : Nat} (hbase : base % 4 = 0) (hlt : base + 4 * n < 0x400)
include hlt

theorem at4_toNat : (at4 base n).toNat = base + 4 * n := by
  rw [at4, BitVec.toNat_ofNat, Nat.mod_eq_of_lt hlt]

theorem regAt_at4 : regAt (at4 base n) = regOfByte (base + 4 * n) := by
  rw [regAt, at4_toNat hlt]

include hbase

theorem wordAccess_at4 : wordAccess (at4 base n) .four = true :=
  (wordAccess_iff _ _).2 ⟨rfl, by rw [at4_toNat hlt]; omega⟩

/-- A read of word n of an array returns the value of the register there. -/
theorem busValue_at4 (s : State) : busValue (at4 base n) .four s = regValue (regOfByte (base + 4 * n)) s := by
  rw [busValue_word (wordAccess_at4 hbase hlt), regAt_at4 hlt]

/-- A write to word n of an array is the write to the register there. -/
theorem write_at4 (v : Word) (s : State) :
    transact (.write (at4 base n) .four v) s = regWrite (regOfByte (base + 4 * n)) v s := by
  rw [transact, busWrite_word (wordAccess_at4 hbase hlt), regAt_at4 hlt]

end

/-- The low half of lane i is word 2i of the array of lane halves (spec/20_memory.md R64). -/
theorem regOfByte_evenWord (i : Fin 25) : regOfByte (0x200 + 4 * (2 * i.val)) = .aLow i := by
  rw [← regOfByte_aLow i]; congr 1; omega

/-- The high half of lane i is word 2i + 1 of the array of lane halves (spec/20_memory.md R64). -/
theorem regOfByte_oddWord (i : Fin 25) : regOfByte (0x200 + 4 * (2 * i.val + 1)) = .aHigh i := by
  rw [← regOfByte_aHigh i]; congr 1; omega

theorem wordAccess_false {off : Offset} {size : Size} (h : ¬IsWord off size) : wordAccess off size = false :=
  Bool.eq_false_iff.2 fun hw => h ((wordAccess_iff off size).1 hw)

end Sys2Proof.Stated
end

section
/-! SUPPORT. The serializations of H and of the first four lanes of A, byte by byte. -/

namespace Sys2Proof.Stated

open Sys2Proof.Machine

/-- Word i of H stands at bytes 4i to 4i + 3 of its serialization, the high byte first (spec/43_digest_hex.md R403). -/
theorem serializeH_byte (h : Vector Word 8) (i : Fin 8) (k : Nat) (hk : k < 4) :
    (serializeH h)[4 * i.val + k] = byteAt h[i] (3 - k) := by
  have hq : (4 * i.val + k) / 4 = i.val := by omega
  have hr : (4 * i.val + k) % 4 = k := by omega
  simp [serializeH, hq, hr]

/-- Lane i stands at bytes 8i to 8i + 7 of its serialization, the low byte first (spec/43_digest_hex.md R404). -/
theorem serializeA_byte (a : Vector Lane 25) (i : Fin 4) (k : Nat) (hk : k < 8) :
    (serializeA a)[8 * i.val + k] = byteAt a[i.val] k := by
  have hq : (8 * i.val + k) / 8 = i.val := by omega
  have hr : (8 * i.val + k) % 8 = k := by omega
  simp [serializeA, hq, hr]

/-- Settles O37: the bytes that are read back are those of one word, or of one lane, in the order of BE32 or LE64. -/
theorem serializationIsInvertible : Obligations.SerializationIsInvertible := by
  constructor
  · intro h i
    have h0 : (serializeH h)[4 * i.val] = byteAt h[i] 3 := serializeH_byte h i 0 (by decide)
    rw [h0, serializeH_byte h i 1 (by decide), serializeH_byte h i 2 (by decide), serializeH_byte h i 3 (by decide)]
    exact be32_byteAt h[i]
  · intro a i
    have h0 : (serializeA a)[8 * i.val] = byteAt a[i.val] 0 := serializeA_byte a i 0 (by decide)
    rw [h0, serializeA_byte a i 1 (by decide), serializeA_byte a i 2 (by decide), serializeA_byte a i 3 (by decide),
      serializeA_byte a i 4 (by decide), serializeA_byte a i 5 (by decide), serializeA_byte a i 6 (by decide),
      serializeA_byte a i 7 (by decide)]
    exact le64_byteAt a[i.val]

end Sys2Proof.Stated
end

section
/-! SUPPORT. Bus reads: what a read returns, and that it changes no state of the THC. -/

namespace Sys2Proof.Stated

open Sys2Proof.Machine

/-- A read that takes no draw changes nothing but the word the host read (spec/20_memory.md R70, R76). -/
theorem read_noDraw {off : Offset} {size : Size} {s : State} (h : takesDraw off size s = false) :
    transact (.read off size) s = { s with rdata := some (busValue off size s) } := by
  simp [transact, busRead, h]

theorem takesDraw_idle {s : State} (hs : s.pend = none) (off : Offset) (size : Size) : takesDraw off size s = false := by
  simp [takesDraw, (busy_false_iff s).2 hs]

theorem takesDraw_control {off : Offset} (hr : (regAt off).isData = false) (size : Size) (s : State) :
    takesDraw off size s = false := by
  simp [takesDraw, hr]

/-- While idle a data register returns its current value (spec/20_memory.md R67). -/
theorem dataRead_idle {s : State} (hs : s.pend = none) (v : Word) : dataRead s v = v := by
  simp [dataRead, (busy_false_iff s).2 hs]

theorem busValue_bad {off : Offset} {size : Size} (h : ¬IsWord off size) (s : State) : busValue off size s = 0 := by
  simp [busValue, wordAccess_false h]

/-- An aligned read of a register that is no data register returns its value and changes nothing else. -/
theorem read_control {off : Offset} {r : Reg} (hw : IsWord off .four) (hr : regAt off = r) (hd : r.isData = false)
    (s : State) : transact (.read off .four) s = { s with rdata := some (regValue r s) } := by
  rw [read_noDraw (takesDraw_control (hr ▸ hd) _ s), busValue_word ((wordAccess_iff _ _).2 hw), hr]

/-- STATUS as one concatenation of its fields, from LASTOP down to BUSY (spec/10_state.md R24). -/
theorem statusWord_eq_append (s : State) : statusWord s = 0#8 ++ s.lastop ++ s.errcode ++ 0#5 ++
    BitVec.ofBool s.err ++ BitVec.ofBool s.done ++ BitVec.ofBool s.pend.isSome := by
  apply BitVec.eq_of_getLsbD_eq
  intro k hk
  iterate 6 rw [BitVec.getLsbD_append]
  interval_cases k <;> simp [statusWord, State.busy]

/-- Settles O38: no word access, so it takes no draw and returns 0. -/
theorem badReadsReturnZero : Obligations.BadReadsReturnZero := by
  intro off size s h
  have hd : takesDraw off size s = false := by simp [takesDraw, wordAccess_false h]
  rw [read_noDraw hd, busValue_bad h]

/-- Settles O39: each array of data registers by the register at its word, and the byte or half that the word holds. -/
theorem idleReadsReturnTheRegisters : Obligations.IdleReadsReturnTheRegisters := by
  intro s hs
  have hv := dataRead_idle hs
  refine ⟨fun i => ?_, fun k j => ?_, fun i => ?_, fun i => ?_, fun k j => ?_, fun k j => ?_, fun off _ _ => ?_⟩
  · rw [busValue_at4 rfl (by omega), regOfByte_h, regValue, hv]
  · rw [busValue_at4 rfl (by omega), regOfByte_bufw, regValue, hv]
    exact byteAt_busWord (n := 34) s.buf k j
  · rw [busValue_at4 rfl (by omega), regOfByte_evenWord, regValue, hv]
    rfl
  · rw [busValue_at4 rfl (by omega), regOfByte_oddWord, regValue, hv]
    rfl
  · rw [busValue_at4 rfl (by omega), regOfByte_dw, regValue, hv]
    exact byteAt_busWord (n := 8) s.digest k j
  · rw [busValue_at4 rfl (by omega), regOfByte_hw, regValue, hv]
    exact byteAt_busWord (n := 16) s.hex k j
  · exact read_noDraw (takesDraw_idle hs off _)

/-- Settles O41: none of the registers there is a data register; STATUS is the concatenation of its fields. -/
theorem controlReadsNeverDependOnBusy : Obligations.ControlReadsNeverDependOnBusy := by
  intro s
  refine ⟨?_, ?_, ?_, fun off hw hoff => ?_⟩
  · exact read_control (r := .id) ⟨rfl, rfl⟩ rfl rfl s
  · exact read_control (r := .cmd) ⟨rfl, rfl⟩ rfl rfl s
  · rw [← statusWord_eq_append]
    exact read_control (r := .status) ⟨rfl, rfl⟩ rfl rfl s
  · exact read_control hw (regAt_unmapped hoff) rfl s

end Sys2Proof.Stated
end

section
/-! SUPPORT. Bus writes: the stores while idle, the errors, and that a store done twice is done once. -/

namespace Sys2Proof.Stated

open Sys2Proof.Machine

/-! ## Errors -/

/-- Recording an error is RecordError of the statements (spec/60_exceptions.md R603). -/
theorem recordError_eq_afterError (e : ErrorCode) (s : State) : recordError e s = afterError e.code s := by
  obtain ⟨herr, h⟩ | ⟨herr, h⟩ := recordError_cases e s
  · rw [h, afterError, herr]
    simp [← herr]
  · simp [h, afterError, herr]

/-- The first error is kept, so a second one changes nothing (spec/60_exceptions.md R603). -/
theorem recordError_recordError (e e' : ErrorCode) (s : State) : recordError e' (recordError e s) = recordError e s :=
  if_pos (recordError_err s e)

theorem commandWrite_busy {c : Word} {s : State} (hc : c ≠ 0x000000FF) (hs : s.pend ≠ none) :
    commandWrite c s = recordError .busyCmd s := by
  rw [commandWrite, if_neg hc, if_pos ((busy_true_iff s).2 hs)]

/-- A word that decodes to no command is not the word of SOFT_RESET, so while idle it records ILLEGAL_CMD. -/
theorem commandWrite_illegal {c : Word} {s : State} (hs : s.pend = none) (hd : ∀ i, decode c ≠ .ok i) :
    commandWrite c s = recordError .illegalCmd s := by
  obtain ⟨rfl, -⟩ | ⟨-, hp, -⟩ | ⟨i, -, -, hi, -⟩ | ⟨e, -, -, -, h⟩ := commandWrite_cases c s
  · exact absurd rfl (hd .softReset)
  · exact absurd hs hp
  · exact absurd hi (hd i)
  · exact h

/-! ## Stores -/

theorem dataWrite_idle {s : State} (hs : s.pend = none) (f : State → State) : dataWrite f s = f s := by
  simp [dataWrite, (busy_false_iff s).2 hs]

theorem dataWrite_busy {s : State} (hs : s.pend ≠ none) (f : State → State) :
    dataWrite f s = recordError .busyWrite s := by
  simp [dataWrite, (busy_true_iff s).2 hs]

theorem setBusWord_setBusWord {n : Nat} (b : Vector Byte (4 * n)) (k : Fin n) (v : Word) :
    setBusWord (setBusWord b k v) k v = setBusWord b k v := by
  ext j hj
  by_cases hk : j / 4 = k.val <;> simp [setBusWord, hk]

theorem setLaneLow_setLaneLow (x : Lane) (v : Word) : setLaneLow (setLaneLow x v) v = setLaneLow x v := by
  rw [setLaneLow, laneHigh_setLaneLow, ← setLaneLow]

theorem setLaneHigh_setLaneHigh (x : Lane) (v : Word) : setLaneHigh (setLaneHigh x v) v = setLaneHigh x v := by
  rw [setLaneHigh, laneLow_setLaneHigh, ← setLaneHigh]

/-- A write to a data register but HEX is a store, refused while busy, that leaves PEND alone and done twice is done once. -/
theorem regWrite_writableData {r : Reg} (hd : r.isData = true) (hhex : ∀ k, r ≠ .hw k) (v : Word) :
    ∃ f : State → State, (∀ s, regWrite r v s = dataWrite f s) ∧ (∀ s, (f s).pend = s.pend) ∧ ∀ s, f (f s) = f s := by
  cases r with
  | h | bufw | aLow | aHigh | dw =>
    exact ⟨_, fun _ => rfl, fun _ => rfl, fun s => by
      simp [setBusWord_setBusWord, setLaneLow_setLaneLow, setLaneHigh_setLaneHigh]⟩
  | hw k => exact absurd rfl (hhex k)
  | id | cmd | status | unmapped => cases hd

theorem dataWrite_dataWrite {f : State → State} (hpend : ∀ s, (f s).pend = s.pend) (hf : ∀ s, f (f s) = f s) (s : State) :
    dataWrite f (dataWrite f s) = dataWrite f s := by
  obtain ⟨hs, h⟩ | ⟨hs, h⟩ := dataWrite_cases f s
  · rw [h, dataWrite_idle ((hpend s).trans hs), hf]
  · rw [h, dataWrite_busy (by simpa using hs), recordError_recordError]

/-- Settles O43: each array of writable data registers by the register at its word, and what the store leaves of it. -/
theorem idleWritesStoreTheRegister : Obligations.IdleWritesStoreTheRegister := by
  intro s v hs
  have hw := dataWrite_idle hs
  refine ⟨fun i => ?_, fun k => ⟨setBusWord (n := 34) s.buf k v, ?_, setBusWord_getElem (n := 34) s.buf k v⟩,
    fun i => ⟨setLaneLow s.a[i] v, ?_, laneLow_setLaneLow _ v, laneHigh_setLaneLow _ v⟩,
    fun i => ⟨setLaneHigh s.a[i] v, ?_, laneHigh_setLaneHigh _ v, laneLow_setLaneHigh _ v⟩,
    fun k => ⟨setBusWord (n := 8) s.digest k v, ?_, setBusWord_getElem (n := 8) s.digest k v⟩⟩
  · rw [write_at4 rfl (by omega), regOfByte_h, regWrite, hw]
  · rw [write_at4 rfl (by omega), regOfByte_bufw, regWrite, hw]
  · rw [write_at4 rfl (by omega), regOfByte_evenWord, regWrite, hw]
  · rw [write_at4 rfl (by omega), regOfByte_oddWord, regWrite, hw]
  · rw [write_at4 rfl (by omega), regOfByte_dw, regWrite, hw]

/-- Settles O44: a bad access first, then the register at the offset, then the tests of that register. -/
theorem writeErrorsFollowThePriority : Obligations.WriteErrorsFollowThePriority := by
  intro off size v s
  simp only [transact]
  refine ⟨fun hbad => ?_, fun hword => ?_⟩
  · rw [busWrite_bad (wordAccess_false hbad)]
    exact recordError_eq_afterError _ s
  rw [busWrite_word ((wordAccess_iff off size).2 hword)]
  refine ⟨fun h => ?_, ?_, fun h hs => ?_, ?_, ?_, ?_⟩
  · rw [regAt_unmapped h]
    exact recordError_eq_afterError _ s
  · rintro (rfl | h)
    · exact recordError_eq_afterError .roWrite s
    · obtain ⟨k, hk⟩ := regAt_hex h
      rw [hk]
      exact recordError_eq_afterError _ s
  · obtain ⟨hd, hhex⟩ := regAt_writableData h
    obtain ⟨f, hf, -⟩ := regWrite_writableData hd hhex v
    rw [hf, dataWrite_busy hs]
    exact recordError_eq_afterError _ s
  · rintro rfl rfl
    rfl
  · rintro rfl hv hs
    exact (commandWrite_busy hv hs).trans (recordError_eq_afterError _ s)
  · rintro rfl hs hv
    exact (commandWrite_illegal hs hv).trans (recordError_eq_afterError _ s)

/-- Settles O48: a store done twice is done once, a refused one leaves the first error; an idle read takes no draw. -/
theorem dataWritesAreIdempotent : Obligations.DataWritesAreIdempotent := by
  constructor
  · intro off v s hword hoff
    obtain ⟨hd, hhex⟩ := regAt_writableData hoff
    obtain ⟨f, hf, hpend, hidem⟩ := regWrite_writableData hd hhex v
    simp only [transact, busWrite_word ((wordAccess_iff off .four).2 hword), hf]
    exact dataWrite_dataWrite hpend hidem s
  · intro off off' size size' s hs
    rw [read_noDraw (takesDraw_idle hs off size)]
    rfl

end Sys2Proof.Stated
end

section
/-! SUPPORT. What the host reads after a command, at the registers that the command does not write. -/

namespace Sys2Proof.Stated

open Sys2Proof.Machine

/-- A register that is neither a data register nor STATUS reads the same in every state (spec/20_memory.md R69). -/
theorem regValue_const {r : Reg} (hd : r.isData = false) (hr : r ≠ .status) (s t : State) : regValue r t = regValue r s := by
  cases r with
  | id | cmd | unmapped => rfl
  | status => exact absurd rfl hr
  | h | bufw | aLow | aHigh | dw | hw => cases hd

/-- At the offset of a control register but STATUS, or at an unmapped one, stands no data register and not STATUS. -/
theorem regOfByte_constant {n : Nat} (hn : n < 0x008 ∨ IsUnmapped n) :
    (regOfByte n).isData = false ∧ regOfByte n ≠ .status := by
  constructor
  · rw [← Bool.not_eq_true, regOfByte_isData_iff]
    simp only [IsUnmapped, IsWritableData, IsHex] at hn ⊢
    omega
  · intro hr
    have hs := regOfByte_spans n
    rw [hr] at hs
    simp only [IsUnmapped, Spans] at hn hs
    omega

/-- A command is not one of those that write a register where a byte of that register is outside the bytes it writes. -/
theorem not_mem_of_outside {i : Instr} {l : List Instr} {lo hi n : Nat} (hl : ∀ j ∈ l, writtenRange j = (lo, hi))
    (hout : ¬((writtenRange i).1 ≤ n ∧ n < (writtenRange i).2)) (hn : lo ≤ n ∧ n < hi) : i ∉ l := by
  intro hm
  rw [hl i hm] at hout
  exact hout hn

/-- A command run while idle leaves what the register of a byte returns, outside the bytes it writes and STATUS
(spec/41_sha256.md R213, spec/42_keccak.md R313, spec/43_digest_hex.md R406). -/
theorem regValue_exec_idle {i : Instr} {s t : State} {n : Nat} (hi : i ≠ .softReset) (hs : s.pend = none)
    (ht : exec i s = .next t) (hout : ¬((writtenRange i).1 ≤ n ∧ n < (writtenRange i).2))
    (hstatus : ¬(0x008 ≤ n ∧ n < 0x00C)) : regValue (regOfByte n) t = regValue (regOfByte n) s := by
  obtain ⟨u, hu, rfl⟩ := exec_idle_keepsFrame hi hs ht
  have hv (v : Word) : dataRead (complete u) v = dataRead s v := by
    rw [dataRead_idle hs, dataRead_idle (complete_pend u)]
  have hspan := regOfByte_spans n
  cases hr : regOfByte n with
  | id | cmd | unmapped => rfl
  | status =>
    rw [hr] at hspan
    exact absurd hspan hstatus
  | h =>
    simp only [hr, Spans] at hspan
    have hh := hu.h (not_mem_of_outside (lo := 0x040) (hi := 0x060) (by decide) hout (by omega))
    simp [regValue, hv, hh]
  | bufw =>
    simp only [hr, Spans] at hspan
    have hb := hu.buf (by rintro rfl; simp only [writtenRange] at hout; omega)
    simp [regValue, hv, hb]
  | aLow | aHigh =>
    simp only [hr, Spans] at hspan
    have ha := hu.a (not_mem_of_outside (lo := 0x200) (hi := 0x2C8) (by decide) hout (by omega))
    simp [regValue, hv, ha]
  | dw =>
    simp only [hr, Spans] at hspan
    have hd := hu.digest (not_mem_of_outside (lo := 0x300) (hi := 0x320) (by decide) hout (by omega))
    simp [regValue, hv, hd]
  | hw =>
    simp only [hr, Spans] at hspan
    have hx := hu.hex (by rintro rfl; simp only [writtenRange] at hout; omega)
    simp [regValue, hv, hx]

/-- An access returns the same in two states where the register at its offset does. -/
theorem busValue_congr {off : Offset} {s t : State} (h : regValue (regAt off) t = regValue (regAt off) s) (size : Size) :
    busValue off size t = busValue off size s := by
  rw [busValue, busValue, h]

/-- Settles O26: while idle by the frame of the command, register by register; while busy the registers read are constant. -/
theorem windowIsUnchangedOutsideTheResult : Obligations.WindowIsUnchangedOutsideTheResult := by
  constructor
  · intro i s t off size hi hs ht hout hstatus
    exact busValue_congr (regValue_exec_idle hi hs ht hout hstatus) size
  · intro i s t off size _ _ _ hoff
    obtain ⟨hd, hr⟩ := regOfByte_constant hoff
    exact busValue_congr (regValue_const hd hr s t) size

end Sys2Proof.Stated
end

section
/-! SUPPORT. The platform bus: which accesses reach the window, and as which transaction. -/

namespace Sys2Proof.Stated

open Sys2Proof.Machine

/-- The THC implements the widths of 1, 2 and 4 bytes (spec/20_memory.md R61). -/
theorem hostSize_isSome_iff (n : Nat) : (hostSize n).isSome ↔ n = 1 ∨ n = 2 ∨ n = 4 := by
  unfold hostSize
  split_ifs <;> simp_all

/-- An address lies in the window exactly when it is one of the 1 KiB from the base (spec/20_memory.md R60). -/
theorem inWindow_iff (base addr : Nat) :
    (base ≤ addr ∧ legalOffset (addr - base) = true) ↔ base ≤ addr ∧ addr < base + 0x400 := by
  rw [legalOffset, decide_eq_true_iff]
  omega

/-- Settles O54: the window by its bounds, the width by the three that exist, the turn by whether there is a transaction. -/
theorem accessesReachTheWindow : Obligations.AccessesReachTheWindow := by
  refine ⟨fun base addr size data => ?_, fun base addr hle hlt p hp => ?_, fun s addr size data => ⟨?_, ?_⟩, ?_⟩
  · unfold atBus
    split_ifs with hwin
    · obtain ⟨hle, hlt⟩ := (inWindow_iff base addr).1 hwin
      simp [hostSize_isSome_iff, hle, hlt]
    · rw [inWindow_iff, not_and] at hwin
      simpa using fun hle hlt => absurd hlt (hwin hle)
  · have hwin := (inWindow_iff base addr).2 ⟨hle, hlt⟩
    have hsize : hostSize p.1 = some p.2 := by
      revert p; decide
    simp [atBus, hwin, hsize]
  · intro t ht
    simp [State.hostAccess, ht]
  · intro hnone
    simp [State.hostAccess, hnone]
  · exact Nat.mul_mod_right 0x400 Config.baseKiB

end Sys2Proof.Stated
end

section
/-! SUPPORT. The decoder and the encoder as inverses of each other, and the turns that carry a command word. -/

namespace Sys2Proof.Stated

open Sys2Proof.Machine

/-! ## Command words -/

/-- The commands of the opcode map in its order (spec/30_encoding.md R103). -/
def commands : List Instr :=
  [.nop, .shaInit, .shaCompress, .kecInit, .kecPermute, .kecAbsorb, .digSha, .digKec, .hexEnc, .bufClear, .softReset]

theorem mem_commands (i : Instr) : i ∈ commands := by
  cases i <;> decide

/-- The assigned opcodes are those of the commands (spec/30_encoding.md R103). -/
theorem mem_assignedOpcodes_iff (o : Byte) : o ∈ assignedOpcodes ↔ ∃ i : Instr, o = i.opcode := by
  have hmap : assignedOpcodes = commands.map Instr.opcode := rfl
  rw [hmap, List.mem_map]
  constructor
  · rintro ⟨i, -, rfl⟩
    exact ⟨i, rfl⟩
  · rintro ⟨i, rfl⟩
    exact ⟨i, mem_commands i, rfl⟩

/-- The encoding laws of the single commands as one. -/
theorem encoding_statement (i : Instr) : Laws.Encoding.Statement i :=
  match i with
  | .nop => Laws.Encoding.nop
  | .shaInit => Laws.Encoding.shaInit
  | .shaCompress => Laws.Encoding.shaCompress
  | .kecInit => Laws.Encoding.kecInit
  | .kecPermute => Laws.Encoding.kecPermute
  | .kecAbsorb => Laws.Encoding.kecAbsorb
  | .digSha => Laws.Encoding.digSha
  | .digKec => Laws.Encoding.digKec
  | .hexEnc => Laws.Encoding.hexEnc
  | .bufClear => Laws.Encoding.bufClear
  | .softReset => Laws.Encoding.softReset

/-- A word decodes to a command exactly when RSV = 0 and OPC is the command's own (spec/30_encoding.md R104). -/
theorem decode_eq_ok_iff (c : Word) (i : Instr) :
    decode c = .ok i ↔ c.extractLsb' 8 24 = 0 ∧ c.extractLsb' 0 8 = i.opcode := by
  rw [← decodeOpcode_eq_some]
  unfold decode
  split_ifs with hrsv
  · cases decodeOpcode (c.extractLsb' 0 8) <;> simp [hrsv]
  · exact iff_of_false (by simp) fun h => hrsv h.1

/-- The first reason of illegality is RSV alone (spec/30_encoding.md R105). -/
theorem decode_of_reserved {c : Word} (h : c.extractLsb' 8 24 ≠ 0) : decode c = .error .reservedNotZero :=
  if_neg h

/-- The second reason of illegality is an unassigned OPC under RSV = 0 (spec/30_encoding.md R105). -/
theorem decode_of_unassigned {c : Word} (hrsv : c.extractLsb' 8 24 = 0) (hopc : c.extractLsb' 0 8 ∉ assignedOpcodes) :
    decode c = .error .opcodeUnassigned := by
  have hnone : decodeOpcode (c.extractLsb' 0 8) = none :=
    Option.eq_none_iff_forall_ne_some.2 fun i hi =>
      hopc ((mem_assignedOpcodes_iff _).2 ⟨i, (decodeOpcode_eq_some _ i).1 hi⟩)
  rw [decode, if_pos hrsv, hnone]

/-- Every command survives encoding. -/
theorem decode_encode (i : Instr) : decode (encode i) = .ok i := by
  obtain ⟨-, -, hrsv, hopc⟩ := encoding_statement i
  exact (decode_eq_ok_iff _ i).2 ⟨hrsv, hopc⟩

/-- A command word taken as a number of 32 bits is the word again. -/
theorem ofNat_toNat_mod (c : Word) : BitVec.ofNat 32 (c.toNat % 2 ^ 32) = c := by
  rw [Nat.mod_eq_of_lt c.isLt, BitVec.ofNat_toNat, BitVec.setWidth_eq]

/-- On a table word of 32 bits the decoder is Decode (spec/30_encoding.md R106). -/
theorem decodeTableWord_of_decode {c : Word} {i : Instr} (h : decode c = .ok i) : decodeTableWord 32 c.toNat = some i := by
  rw [decodeTableWord, if_pos (Nat.mod_lt _ (by decide)), ofNat_toNat_mod, h]

/-- Settles O2: each command's word has RSV = 0 and the command's OPC, and these two fields are the whole word. -/
theorem decodeAndEncodeAgree : Obligations.DecodeAndEncodeAgree :=
  ⟨fun i _ => decode_encode i, fun _ _ h => encode_of_decode h, fun i => decodeTableWord_of_decode (decode_encode i)⟩

/-- Settles O1: the words that decode by their two fields, and each of the eleven words as the word of its command. -/
theorem decodeAcceptsExactlyTheLegalWords : Obligations.DecodeAcceptsExactlyTheLegalWords := by
  refine ⟨fun c => ?_, decode_encode .nop, decode_encode .shaInit, decode_encode .shaCompress, decode_encode .kecInit,
    decode_encode .kecPermute, decode_encode .kecAbsorb, decode_encode .digSha, decode_encode .digKec,
    decode_encode .hexEnc, decode_encode .bufClear, decode_encode .softReset⟩
  simp only [decode_eq_ok_iff, exists_and_left, ← mem_assignedOpcodes_iff]
  rfl

/-- Settles O3: the bus writes by evaluation, each illegal word by the field that makes it so. -/
theorem workedEncodingExamples : Obligations.WorkedEncodingExamples :=
  ⟨rfl, rfl, decode_of_reserved (by decide), decode_of_unassigned (by decide) (by decide), rfl⟩

/-! ## Turns that carry a command word -/

/-- A whole-command turn is the command that its word decodes to. -/
theorem step_command_ok {c : Word} {i : Instr} (h : decode c = .ok i) (s : State) (rest : List Turn) :
    step { s with turns := .command c :: rest } = exec i { s with turns := rest } := by
  simp only [step, h]

/-- A whole-command turn with an illegal word is turned away. -/
theorem step_command_error {c : Word} {e : Illegal} (h : decode c = .error e) (s : State) (rest : List Turn) :
    step { s with turns := .command c :: rest } = .next (rejectIllegal { s with turns := rest }) := by
  simp only [step, h]

/-- An aligned write to CMD is CommandWrite (spec/40_command_core.md R150). -/
theorem write_cmd (c : Word) (s : State) : transact (.write 0x004 .four c) s = commandWrite c s := rfl

/-- An illegal word written to CMD has one meaning, busy or idle: it is not the word of SOFT_RESET (spec/30_encoding.md
R105). -/
theorem commandWrite_error {c : Word} {e : Illegal} (h : decode c = .error e) (s : State) :
    commandWrite c s = rejectIllegal s := by
  obtain ⟨rfl, -⟩ | ⟨-, hp, hw⟩ | ⟨i, -, -, hi, -⟩ | ⟨-, -, hp, -, hw⟩ := commandWrite_cases c s
  · cases h
  · rw [hw, rejectIllegal, if_pos ((busy_true_iff s).2 hp)]
  · cases h.symm.trans hi
  · rw [hw, rejectIllegal, (busy_false_iff s).2 hp]
    rfl

theorem rejectIllegal_idle {s : State} (hs : s.pend = none) : rejectIllegal s = afterError 0x01 s := by
  rw [rejectIllegal, (busy_false_iff s).2 hs]
  exact recordError_eq_afterError .illegalCmd s

theorem rejectIllegal_busy {s : State} (hs : s.pend ≠ none) : rejectIllegal s = afterError 0x02 s := by
  rw [rejectIllegal, if_pos ((busy_true_iff s).2 hs)]
  exact recordError_eq_afterError .busyCmd s

/-- Settles O4: either turn turns the word away, and the error recorded depends on PEND alone. -/
theorem illegalWordsAreRejected : Obligations.IllegalWordsAreRejected := by
  intro c e s rest hd
  have hbus : step { s with turns := .bus (.write 0x004 .four c) :: rest } =
      .next (rejectIllegal { s with turns := rest }) :=
    congrArg _ ((write_cmd c _).trans (commandWrite_error hd _))
  rw [hbus, step_command_error hd]
  refine ⟨fun hs => ?_, fun hs => ?_⟩
  · rw [rejectIllegal_idle (s := { s with turns := rest }) hs]
    exact ⟨rfl, rfl⟩
  · rw [rejectIllegal_busy (s := { s with turns := rest }) hs]
    exact ⟨rfl, rfl⟩

/-- The word of a command placed for the next step is the turn that carries it. -/
theorem withFetchWord_toNat (c : Word) (s : State) :
    s.withFetchWord 32 c.toNat = { s with turns := .command c :: s.turns } := by
  rw [State.withFetchWord, ofNat_toNat_mod]

/-- Settles O5: the turn with a decodable word is its command, and a command's own word decodes to it. -/
theorem stepRunsTheDecodedCommand : Obligations.StepRunsTheDecodedCommand := by
  refine ⟨fun c i s rest hd _ => step_command_ok hd s rest, fun i s _ => ?_⟩
  rw [withFetchWord_toNat]
  exact step_command_ok (decode_encode i) s s.turns

/-- Settles O7: one poll of wait, whose next turns BUSY decides. -/
theorem waitPollsUntilIdle : Obligations.WaitPollsUntilIdle := by
  intro s rest
  have hpoll := step_wait s.rdata rest s
  refine ⟨fun hs => ?_, fun hs => ?_⟩
  · rw [(busy_false_iff s).2 hs] at hpoll
    exact hpoll
  · rw [(busy_true_iff s).2 hs] at hpoll
    exact hpoll

end Sys2Proof.Stated
end

section
/-! SUPPORT. Acceptance and the engine's step: what a CMD write does by its tests, and how the micro-steps of a pending command
follow one another up to its completion. -/

namespace Sys2Proof.Stated

open Sys2Proof.Machine

/-! ## Acceptance -/

/-- The table of the statements is the model's LAT (spec/40_command_core.md R156). -/
theorem latTable_eq_lat (i : Instr) : latTable i = lat i := by
  cases i <;> rfl

/-- The word of a command but SOFT_RESET, written while idle, is accepted (spec/40_command_core.md R150). -/
theorem commandWrite_accept {c : Word} {i : Instr} {s : State} (hd : decode c = .ok i) (hi : i ≠ .softReset)
    (hs : s.pend = none) : commandWrite c s = accept i s := by
  obtain ⟨rfl, -⟩ | ⟨-, hp, -⟩ | ⟨j, -, -, hj, hw⟩ | ⟨e, -, -, he, -⟩ := commandWrite_cases c s
  · cases hd
    exact absurd rfl hi
  · exact absurd hs hp
  · cases hd.symm.trans hj
    exact hw
  · cases hd.symm.trans he

/-- Acceptance is that of the statements, with the command's own opcode in LASTOP. -/
theorem accept_eq_afterAcceptance (i : Instr) (s : State) : accept i s = afterAcceptance i i.opcode s := rfl

/-- Completion is that of the statements. -/
theorem complete_eq_afterCommand (s : State) : complete s = afterCommand s := rfl

/-- Settles O8: the tests of CommandWrite in their order; the opcode accepted is the OPC field of the word. -/
theorem commandWriteFollowsItsTests : Obligations.CommandWriteFollowsItsTests := by
  intro c s
  rw [write_cmd]
  refine ⟨fun hc => if_pos hc, fun hc hs => ?_, fun e he hs => ?_, fun i hd hi hs => ?_⟩
  · exact (commandWrite_busy hc hs).trans (recordError_eq_afterError _ s)
  · exact (commandWrite_error he s).trans (rejectIllegal_idle hs)
  · obtain ⟨-, hopc⟩ := (decode_eq_ok_iff c i).1 hd
    rw [commandWrite_accept hd hi hs, hopc]
    exact ⟨accept_eq_afterAcceptance i s, accept_busy s i⟩

/-! ## One engine step -/

/-- Settles O9: the micro-step leaves PEND and STEP to the sequencing, which completes the command or counts STEP on. -/
theorem engineStepSequencesMicroSteps : Obligations.EngineStepSequencesMicroSteps := by
  refine ⟨fun s hs => engineStep_idle hs, fun s u i hp hlt hu => ?_⟩
  rw [latTable_eq_lat] at hlt ⊢
  obtain ⟨hup, hun, -⟩ := microStep_frame hu
  rw [engineStep_pending hp, engineTick_of_next hlt hu]
  refine ⟨fun hlast => ?_, fun hmore => ?_⟩
  · rw [advance_last (by rwa [hun]), complete_eq_afterCommand]
  · rw [advance_more (by rwa [hun]), hun, ← hp, ← hup]

/-- Micro-step n of command i goes on where n is one of its micro-steps and its counter agrees with n: the ROM address is then
in the table (spec/41_sha256.md R212, spec/42_keccak.md R313). -/
theorem microStep_next {i : Instr} {n : Nat} {s : State} (hn : n < lat i) (hk : 1 ≤ n → CounterAgrees i n s) :
    ∃ u, microStep i n s = .next u := by
  cases i with
  | nop | shaInit | kecInit | digSha | digKec | hexEnc | bufClear => exact ⟨_, rfl⟩
  | softReset => exact absurd hn (Nat.not_lt_zero n)
  | shaCompress =>
    simp only [microStep, shaCompressMicro]
    split_ifs with h0 hround
    · exact ⟨_, rfl⟩
    · have hT : s.t.toNat + 1 = n := hk (by omega)
      exact ⟨_, shaRoundStep_next (by omega)⟩
    · exact ⟨_, rfl⟩
  | kecPermute =>
    simp only [lat] at hn
    simp only [microStep, kecPermuteMicro]
    split_ifs with h0
    · exact ⟨_, kecRoundStep_next (by simp)⟩
    · have hIR : s.ir.toNat = n := hk (by omega)
      exact ⟨_, kecRoundStep_next (by omega)⟩
  | kecAbsorb =>
    simp only [lat] at hn
    simp only [microStep, kecAbsorbMicro]
    split_ifs with h0
    · exact ⟨_, rfl⟩
    · have hIR : s.ir.toNat + 1 = n := hk (by omega)
      exact ⟨_, kecRoundStep_next (by omega)⟩

/-- Command i is pending before its micro-step n, with the counter of its rounds in agreement. -/
structure AtMicroStep (i : Instr) (n : Nat) (s : State) : Prop where
  pend : s.pend = some i
  stepCtr : s.stepCtr.toNat = n
  lt_lat : n < lat i
  counter : 1 ≤ n → CounterAgrees i n s

theorem atMicroStep_accept {i : Instr} (hi : i ≠ .softReset) (s : State) : AtMicroStep i 0 (accept i s) :=
  ⟨rfl, rfl, lat_pos hi, fun h => absurd h (by decide)⟩

theorem atMicroStep_of_inv {i : Instr} {s : State} (hs : Inv s) (hp : s.pend = some i) :
    AtMicroStep i s.stepCtr.toNat s :=
  ⟨hp, rfl, (hs.pending_step i hp).2, counterAgrees_of_inv hs hp⟩

section
variable {i : Instr} {n : Nat} {s : State} (h : AtMicroStep i n s)
include h

/-- The engine performs the micro-step that is due, and it goes on. -/
theorem engineTick_atMicroStep :
    ∃ u, microStep i n s = .next u ∧ engineTick i (microStep i) s = .next (advance i u) := by
  obtain ⟨u, hu⟩ := microStep_next h.lt_lat h.counter
  exact ⟨u, hu, engineTick_of_next (h.stepCtr ▸ h.lt_lat) (h.stepCtr ▸ hu)⟩

theorem advance_atMicroStep_last {u : State} (hu : microStep i n s = .next u) (hlast : n + 1 = lat i) :
    advance i u = complete u := by
  obtain ⟨-, hun, -⟩ := microStep_frame hu
  exact advance_last (by rw [hun, h.stepCtr, hlast])

theorem advance_atMicroStep_more {u : State} (hu : microStep i n s = .next u) (hmore : n + 1 < lat i) :
    advance i u = { u with stepCtr := u.stepCtr + 1 } := by
  obtain ⟨-, hun, -⟩ := microStep_frame hu
  exact advance_more (by rw [hun, h.stepCtr]; omega)

/-- A micro-step that is not the last leaves the command before the one after it. -/
theorem atMicroStep_advance {u : State} (hu : microStep i n s = .next u) (hmore : n + 1 < lat i) :
    AtMicroStep i (n + 1) (advance i u) := by
  obtain ⟨hup, hun, -⟩ := microStep_frame hu
  have hlat := lat_le i
  have hk : CounterAgrees i (n + 1) u := microStep_counter hu hmore h.counter
  rw [advance_atMicroStep_more h hu hmore]
  exact ⟨hup.trans h.pend, toNat_countOn (by rw [hun, h.stepCtr]) (by omega), hmore, fun _ => hk⟩

/-! ## Engine steps in a row -/

/-- Fewer engine steps than are left go on, with the command before a later micro-step. -/
theorem engineRun_before {k : Nat} (hk : n + k < lat i) :
    ∃ u, engineRun i (microStep i) k s = .next u ∧ AtMicroStep i (n + k) u := by
  induction k generalizing n s with
  | zero => exact ⟨s, rfl, h⟩
  | succ k ih =>
    obtain ⟨u, hu, htick⟩ := engineTick_atMicroStep h
    rw [engineRun_succ, htick, andThen_next, ← Nat.add_assoc, Nat.add_right_comm]
    exact ih (atMicroStep_advance h hu (by omega)) (by omega)

/-- The engine steps that are left complete the command. -/
theorem engineRun_rest : ∃ u, engineRun i (microStep i) (lat i - n) s = .next (complete u) := by
  have hlt := h.lt_lat
  obtain ⟨k, hk⟩ : ∃ k, lat i = n + k + 1 := Nat.exists_eq_add_of_lt hlt
  obtain ⟨u, hrun, hu⟩ := engineRun_before h (k := k) (by omega)
  obtain ⟨x, hx, htick⟩ := engineTick_atMicroStep hu
  rw [advance_atMicroStep_last hu hx hk.symm] at htick
  have hleft : lat i - n = k + 1 := by omega
  rw [hleft, engineRun_add, hrun, andThen_next, engineRun_succ, htick]
  exact ⟨x, rfl⟩

end

/-- A command goes on from every state: reset, refused while busy, or run to completion (spec/40_command_core.md R158). -/
theorem exec_next (i : Instr) (s : State) : ∃ t, exec i s = .next t := by
  by_cases hi : i = .softReset
  · subst hi
    exact ⟨_, exec_softReset s⟩
  · by_cases hs : s.pend = none
    · obtain ⟨u, hu⟩ := engineRun_rest (atMicroStep_accept hi s)
      rw [exec_eq_runCommand hi, runCommand_idle hs]
      exact ⟨_, hu⟩
    · exact ⟨_, exec_busy hi hs⟩

/-- The engine goes on from every state of the invariant, pending or idle. -/
theorem engineStep_next {s : State} (hs : Inv s) : ∃ t, engineStep s = .next t := by
  cases hp : s.pend with
  | none => exact ⟨s, engineStep_idle hp⟩
  | some i =>
    obtain ⟨u, -, htick⟩ := engineTick_atMicroStep (atMicroStep_of_inv hs hp)
    exact ⟨_, (engineStep_pending hp).trans htick⟩

/-- Settles O53: only the engine could stop, and the invariant keeps STEP below LAT and the ROM address in its table. -/
theorem invariantStatesStepOn : Obligations.InvariantStatesStepOn := by
  intro s hs
  unfold StepsOn step
  split
  next => exact engineStep_next hs
  next => exact ⟨_, rfl⟩
  next rest _ => exact engineStep_next (inv_withTurns rest hs)
  next => exact ⟨_, rfl⟩
  next => exact ⟨_, rfl⟩
  next c rest _ =>
    split
    next i _ => exact exec_next i _
    next => exact ⟨_, rfl⟩

end Sys2Proof.Stated
end

section
/-! SUPPORT. A pending command from one engine turn to the next: with no host turn left, with engine turns in a row, and with
the host's accesses in between. -/

namespace Sys2Proof.Stated

open Sys2Proof.Machine

/-! ## The machine's runs -/

/-- A step of any machine, then the run of the steps that are left, stopping at the first fault or refusal. -/
theorem core_run_succ (M : Host.Core) (k : Nat) (s : M.State) :
    (∀ t, M.step s = .next t → M.run (k + 1) s = M.run k t) ∧
    (∀ r, M.step s = .fault r → M.run (k + 1) s = .fault r) ∧
    (∀ r, M.step s = .refused r → M.run (k + 1) s = .refused r) := by
  refine ⟨fun t h => ?_, fun r h => ?_, fun r h => ?_⟩ <;> simp only [Host.Core.run, h]

/-- The runs of the machine over its own types. -/
def machineRun (k : Nat) (s : State) : Result :=
  Host.Core.run core k s

@[simp] theorem machineRun_zero (s : State) : machineRun 0 s = .next s := rfl

/-- A run of k + 1 steps is a step and then a run of k. -/
theorem machineRun_succ (k : Nat) (s : State) : machineRun (k + 1) s = andThen (step s) (machineRun k) := by
  obtain ⟨hnext, hfault, hrefused⟩ := core_run_succ core k s
  cases h : step s with
  | next t => exact hnext t h
  | fault r => exact hfault r h
  | refused r => exact hrefused r h

theorem machineRun_one (s : State) : machineRun 1 s = step s := by
  rw [machineRun_succ]
  cases step s <;> rfl

/-- A run of j + k steps is a run of j and then a run of k. -/
theorem machineRun_add (j k : Nat) (s : State) :
    machineRun (j + k) s = andThen (machineRun j s) (machineRun k) := by
  induction j generalizing s with
  | zero => simp
  | succ j ih =>
    rw [Nat.succ_add, machineRun_succ, machineRun_succ, andThen_assoc]
    congr 1
    funext u
    exact ih u

theorem step_engineTurn {s : State} {q : List Turn} (h : s.turns = .engine :: q) :
    step s = engineStep { s with turns := q } := by
  simp only [step, h]

/-! ## The engine by itself -/

theorem microStep_turns {i : Instr} {n : Nat} {s u : State} (h : microStep i n s = .next u) : u.turns = s.turns := by
  obtain ⟨-, -, -, -, -, -, -, -, hturns⟩ := microStep_frame h
  exact hturns

/-- The engine does not look at the turns. -/
theorem engineTick_withTurns (i : Instr) (q : List Turn) (s : State) :
    engineTick i (microStep i) { s with turns := q } =
      andThen (engineTick i (microStep i) s) fun t => .next { t with turns := q } := by
  refine (engineTick_host i s.rdata q s).trans ?_
  cases h : engineTick i (microStep i) s with
  | fault | refused => rfl
  | next t =>
    obtain ⟨-, u, hu, rfl⟩ := (engineTick_eq_next i _ s t).1 h
    obtain ⟨-, -, -, -, -, -, -, hr, -⟩ := microStep_frame hu
    simp [withHost, hr]

/-- A turn q (k + 1) that leaves q k and gives the engine the step: k such turns are k engine steps, while the command has
micro-steps left. -/
theorem run_eq_engineRun {i : Instr} {n k : Nat} {s : State} {q : Nat → List Turn}
    (hq : ∀ (k : Nat) (s : State), step { s with turns := q (k + 1) } = engineStep { s with turns := q k })
    (h : AtMicroStep i n s) (hk : n + k ≤ lat i) (hs : s.turns = q 0) :
    machineRun k { s with turns := q k } = engineRun i (microStep i) k s := by
  induction k generalizing n s with
  | zero => rw [← hs]; rfl
  | succ k ih =>
    obtain ⟨u, hu, htick⟩ := engineTick_atMicroStep h
    have hut : (advance i u).turns = q 0 := by rw [advance_turns, microStep_turns hu, hs]
    have hpend : ({ s with turns := q k } : State).pend = some i := h.pend
    rw [machineRun_succ, hq, engineStep_pending hpend, engineTick_withTurns, engineRun_succ, htick, andThen_next, andThen_next,
      andThen_next]
    cases k with
    | zero => rw [← hut]; rfl
    | succ k => exact ih (atMicroStep_advance h hu (by omega)) (by omega) hut

/-- With no turn left the engine has every step. -/
theorem run_noTurns {i : Instr} {n k : Nat} {s : State} (h : AtMicroStep i n s) (hk : n + k ≤ lat i) (hs : s.turns = []) :
    machineRun k s = engineRun i (microStep i) k s := by
  have hrun := run_eq_engineRun (q := fun _ => []) (fun _ _ => rfl) h hk hs
  rwa [← hs] at hrun

/-- Engine turns in a row are engine steps. -/
theorem run_engineTurns {i : Instr} {n k : Nat} {s : State} (h : AtMicroStep i n s) (hk : n + k ≤ lat i) :
    machineRun k { s with turns := List.replicate k .engine ++ s.turns } = engineRun i (microStep i) k s :=
  run_eq_engineRun (q := fun k => List.replicate k .engine ++ s.turns) (fun _ _ => rfl) h hk rfl

/-- With no turn left a command before its micro-step n is pending for fewer than LAT - n steps and complete after LAT - n. -/
theorem run_atMicroStep_completes {i : Instr} {n : Nat} {s : State} (h : AtMicroStep i n s) (hs : s.turns = []) :
    (∀ k < lat i - n, ∃ u, machineRun k s = .next u ∧ u.pend = some i) ∧
    ∃ t, machineRun (lat i - n) s = .next t ∧ t.pend = none ∧ t.done = true := by
  have hlt := h.lt_lat
  constructor
  · intro k hk
    obtain ⟨u, hu, hat⟩ := engineRun_before h (k := k) (by omega)
    exact ⟨u, (run_noTurns h (by omega) hs).trans hu, hat.pend⟩
  · obtain ⟨u, hu⟩ := engineRun_rest h
    exact ⟨complete u, (run_noTurns h (by omega) hs).trans hu, rfl, rfl⟩

/-- Settles O13: the invariant puts the command before its micro-step STEP. -/
theorem pendingCommandAlwaysCompletes : Obligations.PendingCommandAlwaysCompletes := by
  intro s i hs hp hturns
  rw [latTable_eq_lat]
  exact run_atMicroStep_completes (atMicroStep_of_inv hs hp) hturns

/-- Settles O10: acceptance puts the command before its micro-step 0. -/
theorem commandCompletesAfterExactlyLatSteps : Obligations.CommandCompletesAfterExactlyLatSteps := by
  intro i s hi _ hturns
  rw [latTable_eq_lat]
  exact run_atMicroStep_completes (atMicroStep_accept hi s) hturns

/-- The CMD write of a command and LAT engine turns are the whole command. -/
theorem run_acceptance_engineTurns {i : Instr} {s : State} (hi : i ≠ .softReset) (hs : s.pend = none) (rest : List Turn) :
    machineRun (1 + lat i)
      { s with turns := .bus (.write 0x004 .four (encode i)) :: (List.replicate (lat i) .engine ++ rest) } =
        exec i { s with turns := rest } := by
  have hidle (q : List Turn) : ({ s with turns := q } : State).pend = none := hs
  have haccept (q : List Turn) : step { s with turns := .bus (.write 0x004 .four (encode i)) :: q } =
      .next { accept i { s with turns := rest } with turns := q } :=
    congrArg _ ((write_cmd _ _).trans (commandWrite_accept (decode_encode i) hi (hidle q)))
  rw [Nat.add_comm, machineRun_succ, haccept, andThen_next, exec_eq_runCommand hi, runCommand_idle (hidle rest)]
  exact run_engineTurns (atMicroStep_accept hi _) (by omega)

/-- Settles O11: the CMD write is the acceptance, and LAT engine turns are the LAT engine steps of the whole command. -/
theorem collapsedCommandIsItsMicroSteps : Obligations.CollapsedCommandIsItsMicroSteps := by
  intro i s rest hi hs
  rw [latTable_eq_lat]
  exact ⟨step_command_ok (decode_encode i) s rest, run_acceptance_engineTurns hi hs rest⟩

/-! ## The engine among the host's accesses -/

/-- What a pending command runs on: the state but for the STATUS fields that a host access can change and the model's own
fields. -/
def engineView (s : State) : State :=
  { s with done := false, err := false, errcode := 0, draws := 0, rdata := none, turns := [] }

theorem engineView_recordError (e : ErrorCode) (s : State) : engineView (recordError e s) = engineView s := by
  obtain ⟨-, h⟩ | ⟨-, h⟩ := recordError_cases e s
  · rw [h]
  · rw [h]; rfl

/-- A refused write and a write of STATUS do not reach the engine (spec/20_memory.md R73, spec/40_command_core.md R153). -/
theorem engineView_regWrite_busy {r : Reg} {v : Word} {s : State} (hs : s.pend ≠ none)
    (hr : ¬(r = .cmd ∧ v = 0x000000FF)) : engineView (regWrite r v s) = engineView s := by
  cases r with
  | id | hw | unmapped => exact engineView_recordError _ s
  | status => rfl
  | cmd =>
    have hv : v ≠ 0x000000FF := fun hv => hr ⟨rfl, hv⟩
    rw [regWrite, commandWrite_busy hv hs]
    exact engineView_recordError _ s
  | h | bufw | aLow | aHigh | dw =>
    rw [regWrite, dataWrite_busy hs]
    exact engineView_recordError _ s

/-- The aligned word of CMD is at its offset alone (spec/20_memory.md R62). -/
theorem offset_of_regAt_cmd {off : Offset} {size : Size} (hw : wordAccess off size = true) (hr : regAt off = .cmd) :
    off = 0x004 ∧ size = .four := by
  obtain ⟨hsize, halign⟩ := (wordAccess_iff off size).1 hw
  have hspan := regOfByte_spans off.toNat
  rw [show regOfByte off.toNat = .cmd from hr] at hspan
  simp only [Spans] at hspan
  exact ⟨by bv_omega, hsize⟩

theorem engineView_transact_busy {x : Transaction} {s : State} (hs : s.pend ≠ none) (hx : CannotReset (.bus x)) :
    engineView (transact x s) = engineView s := by
  cases x with
  | read => rfl
  | write off size v =>
    cases hw : wordAccess off size with
    | false =>
      rw [transact, busWrite_bad hw]
      exact engineView_recordError _ s
    | true =>
      rw [transact, busWrite_word hw]
      refine engineView_regWrite_busy hs fun ⟨hr, hv⟩ => hx ?_
      obtain ⟨hoff, hsize⟩ := offset_of_regAt_cmd hw hr
      exact ⟨hoff, hsize, hv⟩

/-- A host turn that is no reset and no wait goes on and does not reach the engine while it is busy. -/
theorem step_hostTurn_busy {t : Turn} {q : List Turn} {s : State} (ht : CannotReset t) (hne : t ≠ .engine)
    (hs : s.pend ≠ none) (hturns : s.turns = t :: q) :
    ∃ w, step s = .next w ∧ w.turns = q ∧ engineView w = engineView s := by
  have hstep : step s = step { s with turns := t :: q } := by rw [← hturns]
  rw [hstep]
  have hs' : ({ s with turns := q } : State).pend ≠ none := hs
  cases t with
  | engine => exact absurd rfl hne
  | wait | reset => exact ht.elim
  | bus x => exact ⟨_, rfl, transact_turns x _, engineView_transact_busy hs' ht⟩
  | command c =>
    cases hd : decode c with
    | ok i =>
      have hi : i ≠ .softReset := by
        rintro rfl
        exact ht (encode_of_decode hd).symm
      rw [step_command_ok hd, exec_busy hi hs']
      exact ⟨_, rfl, recordError_turns _ _, engineView_recordError _ _⟩
    | error e =>
      rw [step_command_error hd]
      exact ⟨_, rfl, recordError_turns _ _, engineView_recordError _ _⟩

/-- Two runs of command i are before the same micro-step n, with the same data registers, the same LASTOP and, once the command
has begun, the same hidden registers. -/
structure InLockstep (i : Instr) (n : Nat) (s s' : State) : Prop where
  left : AtMicroStep i n s
  right : AtMicroStep i n s'
  data : SameData s s'
  lastop : s.lastop = s'.lastop
  hidden : 1 ≤ n → HiddenAgree i s s'

/-- Lockstep is a relation of what the engine runs on. -/
theorem inLockstep_of_engineView {i : Instr} {n : Nat} {s w s' : State} (h : InLockstep i n s s')
    (hw : engineView w = engineView s) : InLockstep i n w s' := by
  have hview : InLockstep i n (engineView s) s' := { h with left := { h.left with } }
  rw [← hw] at hview
  exact { hview with left := { hview.left with } }

theorem readsAgree_of_sameData {i : Instr} {s s' : State} (h : SameData s s') : ReadsAgree i s s' := by
  obtain ⟨hh, hb, ha, hd, -⟩ := h
  cases i with
  | nop | shaInit | kecInit | bufClear | softReset => trivial
  | shaCompress => exact ⟨hh, fun _ => by rw [hb]⟩
  | kecPermute => exact ha
  | kecAbsorb => exact ⟨ha, hb⟩
  | digSha => exact hh
  | digKec => exact fun _ => by rw [ha]
  | hexEnc => exact hd

theorem writesAgree_of_sameData {i : Instr} {s s' : State} (h : SameData s s') : WritesAgree i s s' := by
  obtain ⟨hh, hb, ha, hd, hx⟩ := h
  cases i with
  | nop | softReset => trivial
  | shaInit | shaCompress => exact hh
  | kecInit | kecPermute | kecAbsorb => exact ha
  | digSha | digKec => exact hd
  | hexEnc => exact hx
  | bufClear => exact hb

/-- Two registers that were equal are so again where they were both left alone, or written to be equal. -/
theorem eq_of_written_or_kept {α : Type} {x x' y y' : α} {written : Prop} (hx : x = x') (hw : written → y = y')
    (hy : ¬written → y = x) (hy' : ¬written → y' = x') : y = y' := by
  by_cases h : written
  · exact hw h
  · rw [hy h, hy' h, hx]

/-- The data registers of two states stay the same where command i leaves the others alone and writes its own alike. -/
theorem sameData_of_writesAgree {i : Instr} {s s' u u' : State} (h : SameData s s') (hu : KeepsFrame i s u)
    (hu' : KeepsFrame i s' u') (hw : WritesAgree i u u') : SameData u u' := by
  obtain ⟨hh, hb, ha, hd, hx⟩ := h
  refine ⟨eq_of_written_or_kept hh ?_ hu.h hu'.h, eq_of_written_or_kept hb ?_ hu.buf hu'.buf,
    eq_of_written_or_kept ha ?_ hu.a hu'.a, eq_of_written_or_kept hd ?_ hu.digest hu'.digest,
    eq_of_written_or_kept hx ?_ hu.hex hu'.hex⟩
  · simp only [List.mem_cons, List.not_mem_nil, or_false]
    rintro (rfl | rfl) <;> exact hw
  · rintro rfl; exact hw
  · simp only [List.mem_cons, List.not_mem_nil, or_false]
    rintro (rfl | rfl | rfl) <;> exact hw
  · simp only [List.mem_cons, List.not_mem_nil, or_false]
    rintro (rfl | rfl) <;> exact hw
  · rintro rfl; exact hw

section
variable {i : Instr} {n : Nat} {s s' u u' : State} (h : InLockstep i n s s') (hu : microStep i n s = .next u)
  (hu' : microStep i n s' = .next u')
include h hu hu'

/-- The same micro-step of two runs in lockstep leaves them alike. -/
theorem microStep_inLockstep : SameData u u' ∧ u.lastop = u'.lastop ∧ HiddenAgree i u u' := by
  have hruns : RunsAgree i n s s' :=
    ⟨readsAgree_of_sameData h.data, fun hn => ⟨writesAgree_of_sameData h.data, h.hidden hn⟩⟩
  obtain ⟨-, hagree⟩ := microStep_agree hruns hu hu'
  obtain ⟨hw, hk⟩ := hagree (by omega)
  obtain ⟨-, -, -, -, -, ho, -⟩ := microStep_frame hu
  obtain ⟨-, -, -, -, -, ho', -⟩ := microStep_frame hu'
  exact ⟨sameData_of_writesAgree h.data (microStep_keepsFrame hu) (microStep_keepsFrame hu') hw,
    by rw [ho, ho', h.lastop], hk⟩

/-- A micro-step that is not the last leaves two runs in lockstep before the one after it. -/
theorem inLockstep_advance (hmore : n + 1 < lat i) : InLockstep i (n + 1) (advance i u) (advance i u') := by
  obtain ⟨hdata, hop, hk⟩ := microStep_inLockstep h hu hu'
  have hleft := atMicroStep_advance h.left hu hmore
  have hright := atMicroStep_advance h.right hu' hmore
  rw [advance_atMicroStep_more h.left hu hmore] at hleft ⊢
  rw [advance_atMicroStep_more h.right hu' hmore] at hright ⊢
  exact ⟨hleft, hright, hdata, hop, fun _ => hk⟩

end

/-- Turns from one state, and the engine steps that are among them by themselves from a state in lockstep with it, end in
lockstep. -/
theorem run_inLockstep {i : Instr} {n : Nat} {s s' : State} {ts rest : List Turn} (h : InLockstep i n s s')
    (hts : ∀ t ∈ ts, CannotReset t) (hturns : s.turns = ts ++ rest)
    (hk : n + ts.countP (fun t => t == .engine) < lat i) :
    ∃ u u', machineRun ts.length s = .next u ∧ u.turns = rest ∧
      engineRun i (microStep i) (ts.countP (fun t => t == .engine)) s' = .next u' ∧
      InLockstep i (n + ts.countP (fun t => t == .engine)) u u' := by
  induction ts generalizing n s s' with
  | nil => exact ⟨s, s', rfl, hturns, rfl, h⟩
  | cons t ts ih =>
    obtain ⟨ht, hrest⟩ := List.forall_mem_cons.1 hts
    rw [List.cons_append] at hturns
    rw [List.length_cons, machineRun_succ]
    by_cases hengine : t = .engine
    · subst hengine
      rw [List.countP_cons_of_pos (by simp)] at hk ⊢
      have hturn : InLockstep i n { s with turns := ts ++ rest } s' := inLockstep_of_engineView h rfl
      obtain ⟨u, hu, htick⟩ := engineTick_atMicroStep hturn.left
      obtain ⟨u', hu', htick'⟩ := engineTick_atMicroStep hturn.right
      rw [step_engineTurn hturns, engineStep_pending hturn.left.pend, htick, andThen_next, engineRun_succ, htick',
        andThen_next, ← Nat.add_assoc, Nat.add_right_comm]
      exact ih (inLockstep_advance hturn hu hu' (by omega)) hrest ((advance_turns u i).trans (microStep_turns hu)) (by omega)
    · rw [List.countP_cons_of_neg (by simpa using hengine)] at hk ⊢
      have hbusy : s.pend ≠ none := by simp [h.left.pend]
      obtain ⟨w, hstep, hw, hview⟩ := step_hostTurn_busy ht hengine hbusy hturns
      rw [hstep, andThen_next]
      exact ih (inLockstep_of_engineView h hview) hrest hw hk

/-- Acceptance at two idle states with the same data registers begins in lockstep. -/
theorem inLockstep_accept {i : Instr} {s s' : State} (hi : i ≠ .softReset) (h : SameData s s') :
    InLockstep i 0 (accept i s) (accept i s') where
  left := atMicroStep_accept hi s
  right := atMicroStep_accept hi s'
  data := h
  lastop := rfl
  hidden h := absurd h (by decide)

/-- Settles O12: the interleaved run and the whole run are in lockstep up to the last micro-step, which completes both. -/
theorem hostAccessesCannotDisturbACommand : Obligations.HostAccessesCannotDisturbACommand := by
  intro i s s' ts hi _ hs' hdata hts hcount
  rw [latTable_eq_lat] at hcount
  have hstart : InLockstep i 0 { accept i s with turns := ts ++ [.engine] } (accept i s') :=
    inLockstep_of_engineView (inLockstep_accept hi hdata) rfl
  obtain ⟨v, v', hrun, hv, hrun', hlock⟩ := run_inLockstep hstart hts rfl (by omega)
  have hturn : InLockstep i _ { v with turns := [] } v' := inLockstep_of_engineView hlock rfl
  obtain ⟨u, hu, htick⟩ := engineTick_atMicroStep hturn.left
  obtain ⟨u', hu', htick'⟩ := engineTick_atMicroStep hturn.right
  rw [advance_atMicroStep_last hturn.left hu (by omega)] at htick
  rw [advance_atMicroStep_last hturn.right hu' (by omega)] at htick'
  obtain ⟨hdata', hop, -⟩ := microStep_inLockstep hturn hu hu'
  have hinterleaved : machineRun (ts.length + 1) { accept i s with turns := ts ++ [.engine] } = .next (complete u) := by
    rw [machineRun_add, hrun, andThen_next, machineRun_one, step_engineTurn hv, engineStep_pending hturn.left.pend, htick]
  have hwhole : exec i s' = .next (complete u') := by
    rw [exec_eq_runCommand hi, runCommand_idle hs', ← hcount, engineRun_add, hrun', andThen_next, engineRun_succ, htick']
    rfl
  exact ⟨complete u', complete u, hwhole, hinterleaved, hdata', rfl, rfl, rfl, hop, microStep_turns hu⟩

end Sys2Proof.Stated
end

section
/-! SUPPORT. The rule that a command of one micro-step follows, and the three control commands. -/

namespace Sys2Proof.Stated

open Sys2Proof.Machine

/-! ## Commands of one micro-step -/

/-- A command's word is the only word that decodes to it (spec/30_encoding.md R103, R104). -/
theorem decode_iff_encode (c : Word) (i : Instr) : decode c = .ok i ↔ c = encode i := by
  constructor
  · exact fun h => (encode_of_decode h).symm
  · rintro rfl
    exact decode_encode i

theorem encode_ne_softReset {i : Instr} (hi : i ≠ .softReset) : encode i ≠ 0x000000FF := by
  intro h
  have hd := decode_encode i
  rw [h] at hd
  cases hd
  exact hi rfl

/-- Every command but SOFT_RESET follows the common rule where its run from an idle state is its effect, between acceptance and
completion. -/
theorem commandRule_of_exec {i : Instr} {effect : State → State} (hi : i ≠ .softReset)
    (hexec : ∀ s : State, s.pend = none → exec i s = .next (complete (effect (accept i s)))) :
    CommandRule i (encode i) i.opcode effect := by
  refine ⟨rfl, fun c => decode_iff_encode c i, fun s hs => ?_, hexec, fun s hs => ⟨?_, ?_⟩⟩
  · exact commandWrite_accept (decode_encode i) hi hs
  · rw [exec_busy hi hs, recordError_eq_afterError]
    rfl
  · exact (commandWrite_busy (encode_ne_softReset hi) hs).trans (recordError_eq_afterError _ s)

section
variable {i : Instr} {effect : State → State} (hlat : lat i = 1) (hmicro : ∀ u, microStep i 0 u = .next (effect u))
include hlat hmicro

/-- A command whose one micro-step is its effect follows the common rule. -/
theorem commandRule_oneStep : CommandRule i (encode i) i.opcode effect := by
  have hi : i ≠ .softReset := by
    rintro rfl
    cases hlat
  refine commandRule_of_exec hi fun s hs => ?_
  have hstep (u : State) : (effect u).stepCtr = u.stepCtr := by
    obtain ⟨-, hun, -⟩ := microStep_frame (hmicro u)
    exact hun
  rw [exec_eq_runCommand hi]
  exact runCommand_oneStep hlat hmicro hstep hs

/-- Pending at STEP = 0 a command of one micro-step has its effect and completes. -/
theorem oneMicroStep_of_effect : OneMicroStep i effect := by
  intro s hp hstep
  have hn : s.stepCtr.toNat = 0 := by rw [hstep]; rfl
  obtain ⟨-, hun, -⟩ := microStep_frame (hmicro s)
  rw [engineStep_pending hp, engineTick_of_next (by omega) (hn ▸ hmicro s), advance_last (by rw [hun]; omega)]
  rfl

end

/-! ## NOP -/

/-- STATUS = 0 says that the machine is idle with no error recorded (spec/10_state.md R24). -/
theorem idle_of_statusWord_zero {s : State} (h : statusWord s = 0x00000000) :
    s.pend = none ∧ s.err = false ∧ s.errcode = 0 := by
  obtain ⟨hbusy, -, herr, -, hcode, -⟩ := statusFieldsStandAtTheirBits s
  rw [h] at hbusy herr hcode
  exact ⟨by simpa using hbusy, herr.symm, hcode.symm⟩

/-- Settles O14: the micro-step changes nothing, so completion alone shows in STATUS. -/
theorem nopOnlyCompletes : Obligations.NopOnlyCompletes := by
  have hrule : CommandRule .nop 0x00000000 0x00 (fun s => s) := commandRule_oneStep (i := .nop) rfl fun _ => rfl
  refine ⟨hrule, oneMicroStep_of_effect rfl fun _ => rfl, fun s t hstatus ht => ?_⟩
  obtain ⟨hs, herr, hcode⟩ := idle_of_statusWord_zero hstatus
  obtain ⟨-, -, -, hexec, -⟩ := hrule
  cases (hexec s hs).symm.trans ht
  simp [statusWord, State.busy, afterCommand, afterAcceptance, hiddenDrawn, herr, hcode]

/-! ## BUF_CLEAR -/

theorem bufClear_micro (u : State) : microStep .bufClear 0 u = .next { u with buf := Vector.replicate 136 0 } := by
  have hzero : (Vector.ofFn fun _ => 0 : Vector Byte 136) = Vector.replicate 136 0 := by
    ext j hj
    simp
  rw [← hzero]
  rfl

/-- Settles O15: the micro-step writes the zero buffer, each word of which is four zero bytes. -/
theorem bufClearZeroesTheBuffer : Obligations.BufClearZeroesTheBuffer := by
  have hrule : CommandRule .bufClear 0x00000030 0x30 (fun s => { s with buf := Vector.replicate 136 0 }) :=
    commandRule_oneStep (i := .bufClear) rfl bufClear_micro
  refine ⟨hrule, oneMicroStep_of_effect rfl bufClear_micro, fun s t k hs ht => ?_⟩
  obtain ⟨-, -, -, hexec, -⟩ := hrule
  cases (hexec s hs).symm.trans ht
  rw [busValue_at4 rfl (by omega), regOfByte_bufw, regValue, dataRead_idle rfl]
  simp [afterCommand, hiddenDrawn, busWord, le32]

/-! ## SOFT_RESET -/

/-- Settles O16: exec and the CMD write are the same Reset(), whose registers are read off one by one. -/
theorem softResetResetsBusyOrIdle : Obligations.SoftResetResetsBusyOrIdle := by
  refine ⟨rfl, fun c => decode_iff_encode c .softReset, fun s => ⟨resetState s, exec_softReset s, rfl, ?_⟩⟩
  simp [statusWord]

end Sys2Proof.Stated
end

section
/-! SUPPORT. The functions of SHA-256, the message schedule and its window, and the two SHA-256 commands. -/

namespace Sys2Proof.Stated

open Sys2Proof.Machine

/-! ## The functions of the round -/

/-- Ch takes the bit of y where x has 1 and that of z where x has 0 (spec/41_sha256.md R200). -/
theorem ch_getLsbD (x y z : Word) {k : Nat} (hk : k < 32) :
    (ch x y z).getLsbD k = if x.getLsbD k then y.getLsbD k else z.getLsbD k := by
  simp only [ch, BitVec.getLsbD_xor, BitVec.getLsbD_and, BitVec.getLsbD_not, hk]
  cases x.getLsbD k <;> simp

/-- The exclusive or of the three conjunctions is 1 exactly when at least two of three bits are. -/
theorem xor_and_eq_majority (p q r : Bool) :
    ((p && q) ^^ (p && r) ^^ (q && r)) = decide (2 ≤ p.toNat + q.toNat + r.toNat) := by
  revert p q r
  decide

/-- Maj takes the majority of the three bits (spec/41_sha256.md R200). -/
theorem maj_getLsbD (x y z : Word) (k : Nat) : (maj x y z).getLsbD k =
    decide (2 ≤ (x.getLsbD k).toNat + (y.getLsbD k).toNat + (z.getLsbD k).toNat) := by
  simp only [maj, xor3, BitVec.getLsbD_xor, BitVec.getLsbD_and]
  exact xor_and_eq_majority ..

/-- Settles O28: the model writes the formulas of the rule, and their bits are the choice and the majority. -/
theorem choiceAndMajorityAreBitwise : Obligations.ChoiceAndMajorityAreBitwise :=
  ⟨fun _ _ _ => ⟨rfl, rfl⟩, fun x y z k hk => ⟨ch_getLsbD x y z hk, maj_getLsbD x y z k⟩⟩

/-- Settles O31: the round's values by evaluation. -/
theorem workedShaRound : Obligations.WorkedShaRound := by
  unfold Obligations.WorkedShaRound
  decide +kernel

/-! ## The message schedule -/

/-- The schedule begins with the block's words (spec/41_sha256.md R205). -/
theorem schedule_zero (m : Vector Word 16) : schedule m 0 = m := rfl

section
variable (m : Vector Word 16) (n : Nat)

/-- The schedule with one more word keeps those it has. -/
theorem schedule_succ_lt {t : Nat} (ht : t < 16 + n) : (schedule m (n + 1))[t] = (schedule m n)[t] :=
  Vector.getElem_push_lt ht

/-- The word that the schedule goes on with (spec/41_sha256.md R205). -/
theorem schedule_succ_last : (schedule m (n + 1))[16 + n] =
    smallSigma1 (schedule m n)[n + 14] + (schedule m n)[n + 9] + smallSigma0 (schedule m n)[n + 1] + (schedule m n)[n] :=
  Vector.getElem_push_eq ..

/-- A longer schedule begins with the shorter one. -/
theorem schedule_add_lt (k : Nat) {t : Nat} (ht : t < 16 + n) : (schedule m (n + k))[t] = (schedule m n)[t] := by
  induction k with
  | zero => rfl
  | succ k ih => exact (schedule_succ_lt m (n + k) (by omega)).trans ih

end

/-- Word t is the same in every schedule that reaches it. -/
theorem schedule_getElem_eq (m : Vector Word 16) {n k t : Nat} (hn : t < 16 + n) (hk : t < 16 + k) :
    (schedule m n)[t] = (schedule m k)[t] := by
  obtain hle | hle := Nat.le_total n k
  · obtain ⟨d, rfl⟩ := Nat.exists_eq_add_of_le hle
    exact (schedule_add_lt m n d hn).symm
  · obtain ⟨d, rfl⟩ := Nat.exists_eq_add_of_le hle
    exact schedule_add_lt m k d hk

/-- The recurrence of the schedule, at the word where it is longest and so at every word (spec/41_sha256.md R205). -/
theorem schedule_recurrence (m : Vector Word 16) (n d : Nat) (hd : 16 + d < 16 + n) :
    (schedule m n)[16 + d] = smallSigma1 (schedule m n)[d + 14] + (schedule m n)[d + 9] +
      smallSigma0 (schedule m n)[d + 1] + (schedule m n)[d] := by
  have hkeep {t : Nat} (ht : t < 16 + d) : (schedule m d)[t] = (schedule m n)[t] := schedule_getElem_eq m ht (by omega)
  rw [schedule_getElem_eq m hd (k := d + 1) (by omega), schedule_succ_last, hkeep, hkeep, hkeep, hkeep]

/-- Settles O29: a schedule begins with the shortest one, the block; a later word was pushed by the recurrence. -/
theorem scheduleFollowsTheRecurrence : Obligations.ScheduleFollowsTheRecurrence := by
  intro m n
  refine ⟨fun t => schedule_getElem_eq m (k := 0) (by omega) t.isLt, fun t hlo hhi => ?_⟩
  obtain ⟨d, rfl⟩ := Nat.exists_eq_add_of_le hlo
  have h2 : 16 + d - 2 = d + 14 := by omega
  have h7 : 16 + d - 7 = d + 9 := by omega
  have h15 : 16 + d - 15 = d + 1 := by omega
  have h16 : 16 + d - 16 = d := by omega
  simp only [h2, h7, h15, h16]
  exact schedule_recurrence m n d hhi

/-! ## The window on the schedule -/

/-- A shift moves the words of the window down by one place (spec/41_sha256.md R207). -/
theorem scheduleShift_lt (ws : Vector Word 16) {j : Nat} (hj : j < 15) : (scheduleShift ws)[j] = ws[j + 1] := by
  interval_cases j <;> rfl

/-- A shift puts a new word at the top of the window (spec/41_sha256.md R207). -/
theorem scheduleShift_last (ws : Vector Word 16) :
    (scheduleShift ws)[15] = smallSigma1 ws[14] + ws[9] + smallSigma0 ws[1] + ws[0] := rfl

/-- After n shifts the window holds words n to n + 15 of the schedule (spec/41_sha256.md R207). -/
theorem scheduleShift_iterate_getElem (m : Vector Word 16) (n : Nat) {j : Nat} (hj : j < 16) :
    (scheduleShift^[n] m)[j] = (schedule m n)[n + j] := by
  induction n generalizing j with
  | zero => simp [schedule_zero]
  | succ n ih =>
    rw [Function.iterate_succ_apply']
    obtain hj' | rfl : j < 15 ∨ j = 15 := by omega
    · have hplace : n + 1 + j = n + (j + 1) := by omega
      simp only [hplace]
      rw [scheduleShift_lt _ hj', ih, schedule_succ_lt]
    · have hplace : n + 1 + 15 = 16 + n := by omega
      simp only [hplace]
      rw [scheduleShift_last, ih, ih, ih, ih, schedule_succ_last]
      rfl

/-- Settles O30, by induction on the shifts. -/
theorem windowHoldsTheScheduleWords : Obligations.WindowHoldsTheScheduleWords :=
  fun m n j => scheduleShift_iterate_getElem m n j.isLt

/-- The word that round n takes from the window is word n of the schedule (spec/41_sha256.md R207). -/
theorem scheduleShift_iterate_head (m : Vector Word 16) {n : Nat} (hn : n < 64) :
    (scheduleShift^[n] m)[0] = (schedule m 48)[n] :=
  (scheduleShift_iterate_getElem m n (by decide)).trans (schedule_getElem_eq m (by omega) hn)

theorem scheduleShift_iterate_final (m : Vector Word 16) : scheduleShift^[64] m = finalWindow m := by
  ext j hj
  rw [scheduleShift_iterate_getElem m 64 hj, finalWindow, Vector.getElem_ofFn]

/-! ## SHA_INIT -/

theorem shaInit_micro (u : State) : microStep .shaInit 0 u = .next { u with h := ivRom } := rfl

/-- Settles O17: the micro-step loads the IV, which the window of H shows once idle. -/
theorem shaInitLoadsTheIv : Obligations.ShaInitLoadsTheIv := by
  have hrule : CommandRule .shaInit 0x00000001 0x01 (fun s => { s with h := ivRom }) :=
    commandRule_oneStep (i := .shaInit) rfl shaInit_micro
  refine ⟨hrule, oneMicroStep_of_effect rfl shaInit_micro, fun s t hs ht => ?_⟩
  obtain ⟨-, -, -, hexec, -⟩ := hrule
  cases (hexec s hs).symm.trans ht
  obtain ⟨hread, -⟩ := idleReadsReturnTheRegisters (afterCommand _) rfl
  exact ⟨hread 0, hread 7⟩

/-! ## SHA_COMPRESS -/

section
variable {s : State} (hp : s.pend = some .shaCompress)
include hp

/-- Micro-step 0 loads the window and the working variables (spec/41_sha256.md R211). -/
theorem engineStep_shaLoad (hn : s.stepCtr = 0) :
    engineStep s = .next { s with ws := blockWords s.buf, v := s.h, t := 0, stepCtr := 1 } := by
  have hmicro : microStep .shaCompress s.stepCtr.toNat s = .next (shaLoad s) := by rw [hn]; rfl
  rw [engineStep_pending hp, engineTick_of_next (by rw [hn]; decide) hmicro, advance_more (by simp [shaLoad, hn, lat])]
  simp [shaLoad, hn]

/-- Micro-steps 1 to 64 do one round each, with K addressed by T (spec/41_sha256.md R211, R212). -/
theorem engineStep_shaRound (hlo : 1 ≤ s.stepCtr.toNat) (hhi : s.stepCtr.toNat ≤ 64) (ht : s.t.toNat < 64) :
    engineStep s = .next { s with
      v := shaRound s.v kRom[s.t.toNat] s.ws[0], ws := scheduleShift s.ws, t := s.t + 1, stepCtr := s.stepCtr + 1 } := by
  have hmicro : microStep .shaCompress s.stepCtr.toNat s = shaRoundStep s := by
    rw [microStep, shaCompressMicro, if_neg (by omega), if_pos hhi]
  rw [engineStep_pending hp, engineTick_of_next (by rw [lat]; omega) (hmicro.trans (shaRoundStep_next ht)),
    advance_more (by rw [lat]; dsimp only; omega)]

/-- Micro-step 65 adds the working variables to H and completes (spec/41_sha256.md R211). -/
theorem engineStep_shaFinish (hn : s.stepCtr = 65) :
    engineStep s = .next (complete { s with h := feedForward s.h s.v }) := by
  have hmicro : microStep .shaCompress s.stepCtr.toNat s = .next (shaFinish s) := by rw [hn]; rfl
  rw [engineStep_pending hp, engineTick_of_next (by rw [hn]; decide) hmicro, advance_last (by simp [shaFinish, hn, lat])]
  rfl

end

/-- s after the load and n rounds of SHA_COMPRESS (spec/41_sha256.md R211): the window shifted n times, the working variables of
the whole schedule after round n - 1, T = n and STEP = n + 1. -/
def shaAfterRounds (s : State) (n : Nat) (hn : n ≤ 64) : State :=
  { s with
    ws := scheduleShift^[n] (blockWords s.buf)
    v := shaRounds (schedule (blockWords s.buf) 48) s.h n hn
    t := BitVec.ofNat 7 n
    stepCtr := BitVec.ofNat 7 (n + 1) }

/-- Round n takes the state after n rounds to that after n + 1. -/
theorem engineStep_shaAfterRounds {s : State} (hp : s.pend = some .shaCompress) {n : Nat} (hn : n + 1 ≤ 64) :
    engineStep (shaAfterRounds s n (by omega)) = .next (shaAfterRounds s (n + 1) hn) := by
  have hT : (shaAfterRounds s n (by omega)).t.toNat = n := Nat.mod_eq_of_lt (by omega)
  have hstep : (shaAfterRounds s n (by omega)).stepCtr.toNat = n + 1 := Nat.mod_eq_of_lt (by omega)
  have hword : (shaAfterRounds s n (by omega)).ws[0] = (schedule (blockWords s.buf) 48)[n] :=
    scheduleShift_iterate_head _ hn
  rw [engineStep_shaRound (s := shaAfterRounds s n _) hp (by omega) (by omega) (by omega)]
  simp only [hT, hword]
  simp [shaAfterRounds, shaRounds, Function.iterate_succ_apply', BitVec.ofNat_add]

/-- The load and n rounds are the first n + 1 micro-steps of SHA_COMPRESS. -/
theorem engineRun_shaRounds {s : State} (hp : s.pend = some .shaCompress) (hs : s.stepCtr = 0) {n : Nat} (hn : n ≤ 64) :
    engineRun .shaCompress (microStep .shaCompress) (n + 1) s = .next (shaAfterRounds s n hn) := by
  induction n with
  | zero =>
    rw [engineRun_succ, ← engineStep_pending hp, engineStep_shaLoad hp hs]
    rfl
  | succ n ih =>
    have hp' : (shaAfterRounds s n (by omega)).pend = some .shaCompress := hp
    rw [engineRun_add, ih (by omega), andThen_next, engineRun_succ, ← engineStep_pending hp',
      engineStep_shaAfterRounds hp hn]
    rfl

/-- Run whole from an idle state SHA_COMPRESS has the compression as its effect. -/
theorem exec_shaCompress {s : State} (hs : s.pend = none) : exec .shaCompress s =
    .next (complete { accept .shaCompress s with h := compress s.h (blockWords s.buf) }) := by
  have hp : (shaAfterRounds (accept .shaCompress s) 64 (by omega)).pend = some .shaCompress := rfl
  have hlat : lat .shaCompress = 64 + 1 + 1 := rfl
  rw [exec_eq_runCommand (by decide), runCommand_idle hs, hlat, engineRun_add,
    engineRun_shaRounds (accept_pend s _) (accept_stepCtr s _) (by omega), andThen_next, engineRun_succ,
    ← engineStep_pending hp, engineStep_shaFinish hp rfl]
  rfl

/-- With no turn left, 65 steps are the load and the 64 rounds. -/
theorem run_shaRounds {s : State} (hp : s.pend = some .shaCompress) (hs : s.stepCtr = 0) (hturns : s.turns = []) :
    machineRun 65 s = .next (shaAfterRounds s 64 (by omega)) := by
  have hat : AtMicroStep .shaCompress 0 s := ⟨hp, by rw [hs]; rfl, by decide, fun h => absurd h (by decide)⟩
  rw [run_noTurns hat (by decide) hturns]
  exact engineRun_shaRounds hp hs (by omega)

/-- The compression of the block of "abc" (spec/41_sha256.md R211, example). -/
theorem compress_abc :
    compress ivRom #v[0x61626380, 0, 0, 0, 0, 0, 0, 0, 0, 0, 0, 0, 0, 0, 0, 0x00000018] =
      #v[0xba7816bf, 0x8f01cfea, 0x414140de, 0x5dae2223, 0xb00361a3, 0x96177a9c, 0xb410ff61, 0xf20015ad] := by
  decide +kernel

/-- Settles O18: the micro-steps one by one, and the rounds in a row by induction, where the window gives each round its word of
the schedule. -/
theorem shaCompressComputesTheCompression : Obligations.ShaCompressComputesTheCompression := by
  refine ⟨?_, fun s hp hn => engineStep_shaLoad hp hn, fun s hp hlo hhi ht => engineStep_shaRound hp hlo hhi ht,
    fun s hp hn hturns => ?_, fun s hp hn => engineStep_shaFinish hp hn, compress_abc⟩
  · exact commandRule_of_exec (i := .shaCompress) (by decide) fun s hs => exec_shaCompress hs
  · rw [← scheduleShift_iterate_final]
    exact run_shaRounds hp hn hturns

end Sys2Proof.Stated
end

section
/-! SUPPORT. The step mappings of Keccak lane by lane, the tables of their definitions, and the chain form of rho and pi. -/

namespace Sys2Proof.Stated

open Sys2Proof.Machine

/-! ## Step mappings -/

/-- The lane k places on from lane x + 5y is in column x + k. -/
theorem lane_mod (x y : Fin 5) (k : Nat) : (x.val + 5 * y.val + k) % 5 = (x.val + k) % 5 := by omega

/-- Lane x + 5y is in row y. -/
theorem lane_div (x y : Fin 5) : (x.val + 5 * y.val) / 5 = y.val := by omega

theorem rhoRom_lt : ∀ i : Fin 25, rhoRom[i] < 64 := by
  decide

theorem rho_getElem (a : Vector Lane 25) (i : Fin 25) : (rho a)[i] = rotl a[i] rhoRom[i] := by
  simp [rho]

theorem pi_getElem (a : Vector Lane 25) (d : Fin 25) : (pi a)[d] = a[piSrc[d]] := by
  simp [pi]

/-- The PI ROM by coordinates: the lane at (x, y) moves to (y, 2x + 3y) (spec/42_keccak.md R304). -/
theorem piSrc_at (x y : Fin 5) : (piSrc[y.val + 5 * ((2 * x.val + 3 * y.val) % 5)]).val = x.val + 5 * y.val := by
  revert x y
  decide

/-- The parity of column c (spec/42_keccak.md R301). -/
def columnParity (a : Vector Lane 25) (c : Fin 5) : Lane :=
  a[c.val] ^^^ a[c.val + 5] ^^^ a[c.val + 10] ^^^ a[c.val + 15] ^^^ a[c.val + 20]

theorem theta_getElem (a : Vector Lane 25) (x y : Fin 5) : (theta a)[x.val + 5 * y.val] =
    a[x.val + 5 * y.val] ^^^ (columnParity a (x + 4) ^^^ (columnParity a (x + 1)).rotateLeft 1) := by
  simp [theta, columnParity, lane_mod, Fin.val_add, rotl_eq_rotateLeft _ (show 1 < 64 by decide)]

theorem chi_getElem (a : Vector Lane 25) (x y : Fin 5) : (chi a)[x.val + 5 * y.val] = a[x.val + 5 * y.val] ^^^
    (~~~(a[(x + 1 : Fin 5).val + 5 * y.val]) &&& a[(x + 2 : Fin 5).val + 5 * y.val]) := by
  simp [chi, lane_mod, lane_div, Fin.val_add]

theorem iota_getElem (a : Vector Lane 25) (rc : Lane) (i : Nat) (hi : i < 25) :
    (iota a rc)[i] = if i = 0 then a[0] ^^^ rc else a[i] := by
  simp [iota, Vector.getElem_set, eq_comm]

/-- Settles O32: each mapping by its lane, and the PI ROM by coordinates. -/
theorem keccakStepMappings : Obligations.KeccakStepMappings := by
  intro a x y rc
  refine ⟨theta_getElem a x y, ?_, ?_, chi_getElem a x y, iota_getElem a rc _ (by omega)⟩
  · have hlane : x.val + 5 * y.val < 25 := by omega
    exact (rho_getElem a ⟨_, hlane⟩).trans (rotl_eq_rotateLeft _ (rhoRom_lt ⟨_, hlane⟩))
  · have hlane : y.val + 5 * ((2 * x.val + 3 * y.val) % 5) < 25 := by omega
    refine (pi_getElem a ⟨_, hlane⟩).trans ?_
    simp only [Fin.getElem_fin, piSrc_at]

/-! ## Tables -/

/-- The RHO ROM is the walk of its definition (spec/42_keccak.md R303). -/
theorem rhoRom_walk : rhoRom[0] = 0 ∧ (rhoWalk 24 0 1 0).length = 24 ∧
    ∀ p ∈ rhoWalk 24 0 1 0, rhoRom.toList[p.1]? = some p.2 := by
  decide +kernel

/-- The codes are the output of the LFSR (spec/42_keccak.md R307). -/
theorem rccRom_lfsr :
    ∀ (ir : Fin 24) (j : Fin 7), rccRom[ir].getLsbD j.val = (lfsr (j.val + 7 * ir.val)).getLsbD 0 := by
  decide +kernel

/-- Each round constant is the expansion of its code (spec/42_keccak.md R307). -/
theorem rcRom_eq_expandRcc : ∀ ir : Fin 24, rcRom[ir] = expandRcc rccRom[ir] := by
  decide +kernel

/-- The expansion of the first n bits of a code. -/
def expandBits (code : BitVec 7) (n : Nat) : Lane :=
  (List.range n).foldl (fun rc j => if code.getLsbD j then rc ||| (1#64 <<< (2 ^ j - 1)) else rc) 0

theorem expandBits_seven (code : BitVec 7) : expandBits code 7 = expandRcc code := rfl

theorem expandBits_succ (code : BitVec 7) (n : Nat) : expandBits code (n + 1) =
    if code.getLsbD n then expandBits code n ||| (1#64 <<< (2 ^ n - 1)) else expandBits code n := by
  simp [expandBits, List.range_succ]

theorem one_shiftLeft_getLsbD (m : Nat) {k : Nat} (hk : k < 64) : (1#64 <<< m).getLsbD k = true ↔ k = m := by
  rw [← BitVec.twoPow_eq, BitVec.getLsbD_twoPow, Bool.and_eq_true, decide_eq_true_iff, decide_eq_true_iff]
  omega

/-- Bit k of the expansion is 1 exactly where a code bit j < n that is 1 stands for it. -/
theorem expandBits_getLsbD (code : BitVec 7) (n : Nat) {k : Nat} (hk : k < 64) :
    (expandBits code n).getLsbD k = true ↔ ∃ j < n, code.getLsbD j = true ∧ k = 2 ^ j - 1 := by
  induction n with
  | zero => simp [expandBits]
  | succ n ih =>
    rw [expandBits_succ, Nat.exists_lt_succ_right, ← ih]
    cases code.getLsbD n with
    | true => simp only [if_true, BitVec.getLsbD_or, Bool.or_eq_true, one_shiftLeft_getLsbD _ hk, true_and]
    | false => simp

/-- Settles O33: the two tables by evaluation, and the expansion of any code by its bits. -/
theorem tablesFollowTheirDefinitions : Obligations.TablesFollowTheirDefinitions := by
  refine ⟨rhoRom_walk, rccRom_lfsr, fun ir k hk => ?_⟩
  rw [rcRom_eq_expandRcc, ← expandBits_seven, expandBits_getLsbD _ _ hk]
  simp only [Fin.exists_iff, exists_prop]

/-! ## The chain form -/

/-- Entry (r, j) of the chain follows an entry that ends at lane p: lane j takes lane p, rotated by its RHO entry r. -/
def FollowsRhoPi (e f : Nat × Fin 25) : Prop :=
  rhoRom[e.2] = f.1 ∧ piSrc[f.2] = e.2

/-- The entry that ends at lane j after lane e.2 carries the value of pi(rho(a)) there. -/
theorem rotl_eq_pi_rho {a : Vector Lane 25} {e : Nat × Fin 25} {r : Nat} {j : Fin 25} (h : FollowsRhoPi e (r, j)) :
    rotl a[e.2] r = (pi (rho a))[j] := by
  obtain ⟨hr, hj⟩ := h
  rw [pi_getElem, rho_getElem, hj, hr]

theorem set_getElem (b : Vector Lane 25) (j d : Fin 25) (v : Lane) : (b.set j v)[d] = if d = j then v else b[d] := by
  simp [Vector.getElem_set, Fin.ext_iff, eq_comm]

/-- A chain of distinct lanes that carries the lane of e first gives each of its lanes the value of pi(rho(a)) and leaves the
others alone, where the lanes of the chain still hold their values of a. -/
theorem chainFrom_getElem {a b : Vector Lane 25} {e : Nat × Fin 25} {l : List (Nat × Fin 25)}
    (hchain : (e :: l).IsChain FollowsRhoPi) (hdistinct : (l.map Prod.snd).Nodup)
    (hkept : ∀ j ∈ l.map Prod.snd, b[j] = a[j]) (d : Fin 25) :
    (chainFrom a[e.2] l b)[d] = if d ∈ l.map Prod.snd then (pi (rho a))[d] else b[d] := by
  induction l generalizing b e with
  | nil => rfl
  | cons f l ih =>
    obtain ⟨r, j⟩ := f
    obtain ⟨hfollows, hchain⟩ := List.isChain_cons_cons.1 hchain
    obtain ⟨hnew, hdistinct⟩ := List.nodup_cons.1 hdistinct
    have hcarried : b[j] = a[j] := hkept j List.mem_cons_self
    have hkept' : ∀ m ∈ l.map Prod.snd, (b.set j (rotl a[e.2] r))[m] = a[m] := fun m hm => by
      rw [set_getElem, if_neg (ne_of_mem_of_not_mem hm hnew)]
      exact hkept m (List.mem_cons_of_mem _ hm)
    have hrest := ih hchain hdistinct hkept'
    rw [chainFrom, hcarried, hrest, set_getElem, rotl_eq_pi_rho hfollows]
    have hmem : d ∈ ((r, j) :: l).map Prod.snd ↔ d = j ∨ d ∈ l.map Prod.snd := List.mem_cons
    simp only [hmem]
    obtain rfl | hd := eq_or_ne d j
    · simp only [true_or, if_true, ite_self]
    · simp only [hd, false_or, if_false]

theorem chainRom_follows : ((0, 1) :: chainRom).IsChain FollowsRhoPi := by
  unfold FollowsRhoPi
  decide

/-- Lane 0 is where it was, not rotated (spec/42_keccak.md R303, R304). -/
theorem pi_rho_zero (a : Vector Lane 25) : (pi (rho a))[(0 : Fin 25)] = a[(0 : Fin 25)] := by
  have hsrc : piSrc[(0 : Fin 25)] = 0 := rfl
  have hamount : rhoRom[(0 : Fin 25)] = 0 := rfl
  rw [pi_getElem, rho_getElem, hsrc, hamount]
  simp [rotl, BitVec.ushiftRight_eq_zero]

/-- Settles O34: the chain passes through every lane but lane 0, which rho and pi leave where it is. -/
theorem chainFormEqualsRhoThenPi : Obligations.ChainFormEqualsRhoThenPi := by
  intro a
  have hlane (d : Fin 25) : (rhoPiChain a)[d] = (pi (rho a))[d] := by
    have hother : ∀ d : Fin 25, d ∉ chainRom.map Prod.snd → d = 0 := by decide
    refine (chainFrom_getElem (e := (0, 1)) chainRom_follows (by decide) (fun _ _ => rfl) d).trans ?_
    split
    · rfl
    next hnot => rw [hother d hnot, pi_rho_zero]
  exact Vector.ext fun d hd => hlane ⟨d, hd⟩

/-- Settles O35: the values of single steps by evaluation. -/
theorem workedKeccakSteps : Obligations.WorkedKeccakSteps := by
  unfold Obligations.WorkedKeccakSteps
  decide +kernel

end Sys2Proof.Stated
end

section
/-! SUPPORT. The rounds of the Keccak engine, and the three Keccak commands. -/

namespace Sys2Proof.Stated

open Sys2Proof.Machine

/-! ## KEC_INIT -/

theorem kecInit_micro (u : State) : microStep .kecInit 0 u = .next { u with a := Vector.replicate 25 0 } := by
  have hzero : (Vector.ofFn fun _ => 0 : Vector Lane 25) = Vector.replicate 25 0 := by
    ext i hi
    simp
  rw [← hzero]
  rfl

/-- While idle the words of a zero state read as 0, the even ones as low halves and the odd ones as high halves. -/
theorem busValue_zeroLanes {s : State} (hs : s.pend = none) (ha : s.a = Vector.replicate 25 0) (k : Fin 50) :
    busValue (at4 0x200 k) .four s = 0x00000000 := by
  obtain ⟨-, -, hlow, hhigh, -⟩ := idleReadsReturnTheRegisters s hs
  obtain ⟨m, hm | hm⟩ := Nat.even_or_odd' k.val
  · rw [hm, hlow ⟨m, by omega⟩, ha]
    simp
  · rw [hm, hhigh ⟨m, by omega⟩, ha]
    simp

/-- Settles O19: the micro-step writes the zero state, each word of which is half of a zero lane. -/
theorem kecInitZeroesTheState : Obligations.KecInitZeroesTheState := by
  have hrule : CommandRule .kecInit 0x00000010 0x10 (fun s => { s with a := Vector.replicate 25 0 }) :=
    commandRule_oneStep (i := .kecInit) rfl kecInit_micro
  refine ⟨hrule, oneMicroStep_of_effect rfl kecInit_micro, fun s t k hs ht => ?_⟩
  obtain ⟨-, -, -, hexec, -⟩ := hrule
  cases (hexec s hs).symm.trans ht
  exact busValue_zeroLanes rfl rfl k

/-! ## Rounds of KEC_PERMUTE and KEC_ABSORB -/

section
variable {i : Instr} {s : State} {r : BitVec 5} (hp : s.pend = some i)
  (hmicro : microStep i s.stepCtr.toNat s = kecRoundStep { s with ir := r }) (hr : r.toNat < 24)
include hp hmicro hr

/-- A micro-step that is a round with RC at r, and not the last, counts STEP on (spec/42_keccak.md R311, R312, R313). -/
theorem engineStep_kecRound_more (hmore : s.stepCtr.toNat + 1 < lat i) : engineStep s =
    .next { s with a := kRound s.a rcRom[r.toNat], ir := r + 1, stepCtr := s.stepCtr + 1 } := by
  rw [engineStep_pending hp, engineTick_of_next (by omega) (hmicro.trans (kecRoundStep_next hr))]
  exact congrArg _ (advance_more hmore.ne)

/-- A micro-step that is a round with RC at r, and the last, completes the command (spec/42_keccak.md R311, R312). -/
theorem engineStep_kecRound_last (hlast : s.stepCtr.toNat + 1 = lat i) : engineStep s =
    .next (complete { s with a := kRound s.a rcRom[r.toNat] }) := by
  rw [engineStep_pending hp, engineTick_of_next (by omega) (hmicro.trans (kecRoundStep_next hr))]
  exact congrArg _ (advance_last hlast)

end

/-- s after n rounds, where micro-step `first` is round 0: IR = n and STEP = first + n (spec/42_keccak.md R313). -/
def kecAfterRounds (first : Nat) (s : State) (n : Nat) (hn : n ≤ 24) : State :=
  { s with
    a := keccakRounds s.a n hn
    ir := BitVec.ofNat 5 n
    stepCtr := BitVec.ofNat 7 (first + n) }

section
variable {i : Instr} {first : Nat} {s : State} (hp : s.pend = some i) (hlat : lat i = first + 24)
  (hround : ∀ (n : Nat) (u : State), u.ir = BitVec.ofNat 5 n → microStep i (first + n) u = kecRoundStep u)
include hlat

theorem kecAfterRounds_stepCtr {n : Nat} (hn : n ≤ 24) : (kecAfterRounds first s n hn).stepCtr.toNat = first + n := by
  have hle := lat_le i
  exact Nat.mod_eq_of_lt (by omega)

include hround

/-- The micro-step due after n rounds is the round with RC at n. -/
theorem microStep_kecAfterRounds {n : Nat} (hn : n ≤ 24) :
    microStep i (kecAfterRounds first s n hn).stepCtr.toNat (kecAfterRounds first s n hn) =
      kecRoundStep { kecAfterRounds first s n hn with ir := BitVec.ofNat 5 n } := by
  rw [kecAfterRounds_stepCtr hlat hn]
  exact hround n _ rfl

include hp

/-- Round n, short of the last, takes the state after n rounds to that after n + 1. -/
theorem engineStep_kecAfterRounds {n : Nat} (hn : n < 23) :
    engineStep (kecAfterRounds first s n (by omega)) = .next (kecAfterRounds first s (n + 1) (by omega)) := by
  have hIR : (BitVec.ofNat 5 n).toNat = n := Nat.mod_eq_of_lt (by omega)
  rw [engineStep_kecRound_more (s := kecAfterRounds first s n _) hp (microStep_kecAfterRounds hlat hround _) (by omega)
    (by rw [kecAfterRounds_stepCtr hlat]; omega)]
  simp only [hIR]
  simp [kecAfterRounds, keccakRounds, BitVec.ofNat_add, ← Nat.add_assoc]

/-- The last round completes the command. -/
theorem engineStep_kecAfterRounds_last :
    engineStep (kecAfterRounds first s 23 (by omega)) = .next (complete { s with a := keccakF s.a }) :=
  engineStep_kecRound_last (s := kecAfterRounds first s 23 _) hp (microStep_kecAfterRounds hlat hround _) (by decide)
    (by rw [kecAfterRounds_stepCtr hlat, hlat])

/-- The rounds in a row, short of the last. -/
theorem engineRun_kecRounds {n : Nat} (hn : n ≤ 23) :
    engineRun i (microStep i) n (kecAfterRounds first s 0 (by omega)) = .next (kecAfterRounds first s n (by omega)) := by
  induction n with
  | zero => rfl
  | succ n ih =>
    have hp' : (kecAfterRounds first s n (by omega)).pend = some i := hp
    rw [engineRun_add, ih (by omega), andThen_next, engineRun_succ, ← engineStep_pending hp',
      engineStep_kecAfterRounds hp hlat hround (by omega)]
    rfl

/-- All 24 rounds are the permutation and complete the command. -/
theorem engineRun_keccakF : engineRun i (microStep i) 24 (kecAfterRounds first s 0 (by omega)) =
    .next (complete { s with a := keccakF s.a }) := by
  have hp' : (kecAfterRounds first s 23 (by omega)).pend = some i := hp
  refine (engineRun_add i (microStep i) 23 1 _).trans ?_
  rw [engineRun_kecRounds hp hlat hround (by omega), andThen_next, engineRun_succ,
    ← engineStep_pending hp', engineStep_kecAfterRounds_last hp hlat hround]
  rfl

end

/-! ## KEC_PERMUTE -/

theorem kecPermute_micro_zero (s : State) : microStep .kecPermute 0 s = kecRoundStep { s with ir := 0 } := rfl

theorem kecPermute_micro_succ {n : Nat} (hn : n ≠ 0) (s : State) : microStep .kecPermute n s = kecRoundStep s := by
  rw [microStep, kecPermuteMicro, if_neg hn]

/-- Where IR = n micro-step n is a round: micro-step 0 writes the 0 that is there. -/
theorem kecPermute_micro_round (n : Nat) (u : State) (hu : u.ir = BitVec.ofNat 5 n) :
    microStep .kecPermute (0 + n) u = kecRoundStep u := by
  rw [Nat.zero_add]
  obtain rfl | hn := eq_or_ne n 0
  · have hsame : { u with ir := 0 } = u := by rw [← show u.ir = 0 from hu]
    rw [kecPermute_micro_zero, hsame]
  · exact kecPermute_micro_succ hn u

/-- Run whole from an idle state KEC_PERMUTE has the permutation as its effect: micro-step 0 writes IR = 0, so IR at acceptance
plays no part. -/
theorem exec_kecPermute {s : State} (hs : s.pend = none) :
    exec .kecPermute s = .next (complete { accept .kecPermute s with a := keccakF s.a }) := by
  have hstart : engineRun .kecPermute (microStep .kecPermute) 24 (accept .kecPermute s) =
      engineRun .kecPermute (microStep .kecPermute) 24 (kecAfterRounds 0 (accept .kecPermute s) 0 (by omega)) := rfl
  have hlat : lat .kecPermute = 24 := rfl
  rw [exec_eq_runCommand (by decide), runCommand_idle hs, hlat, hstart]
  exact engineRun_keccakF (first := 0) (s := accept .kecPermute s) rfl rfl kecPermute_micro_round

/-- The permutation of the zero state (spec/42_keccak.md R311, example). -/
theorem keccakF_zero : (keccakF (Vector.replicate 25 0))[0] = 0xF1258F7940E1DDE7 ∧
    (keccakF (Vector.replicate 25 0))[1] = 0x84D5CCF933C0478A := by
  decide +kernel

/-- Settles O20: the micro-steps one by one, and the rounds in a row by induction, where IR counts from 0 as the rounds do. -/
theorem kecPermuteComputesThePermutation : Obligations.KecPermuteComputesThePermutation := by
  refine ⟨?_, fun s hp hn => ?_, fun s hp hlo hhi hr => ?_, fun s hir => ?_, fun s hp hn hr => ?_, keccakF_zero⟩
  · exact commandRule_of_exec (i := .kecPermute) (by decide) fun s hs => exec_kecPermute hs
  · have hzero : s.stepCtr.toNat = 0 := by rw [hn]; rfl
    have hmicro : microStep .kecPermute s.stepCtr.toNat s = kecRoundStep { s with ir := 0 } := by
      rw [hzero, kecPermute_micro_zero]
    rw [engineStep_kecRound_more hp hmicro (by decide) (by rw [hn]; decide), hn]
    rfl
  · exact engineStep_kecRound_more hp (kecPermute_micro_succ (by omega) s) hr (by rw [lat]; omega)
  · rw [kecPermute_micro_succ (by decide), kecRoundStep_next (by rw [hir]; decide)]
    simp [hir]
  · exact engineStep_kecRound_last hp (kecPermute_micro_succ (by rw [hn]; decide) s) hr (by rw [hn]; decide)

/-! ## KEC_ABSORB -/

theorem kecAbsorb_micro_succ {n : Nat} (hn : n ≠ 0) (s : State) : microStep .kecAbsorb n s = kecRoundStep s := by
  rw [microStep, kecAbsorbMicro, if_neg hn]

/-- The rate block goes into lanes 0 to 16 only (spec/42_keccak.md R312). -/
theorem xorRate_getElem (a : Vector Lane 25) (b : Vector Byte 136) (i : Fin 25) :
    (xorRate a b)[i] = if hi : i.val < 17 then a[i] ^^^ rateLane b ⟨i.val, hi⟩ else a[i] := by
  simp [xorRate]

/-- Micro-step 0 XORs the rate block into A and sets IR = 0 (spec/42_keccak.md R312). -/
theorem engineStep_kecXor {s : State} (hp : s.pend = some .kecAbsorb) (hn : s.stepCtr = 0) :
    engineStep s = .next { s with a := xorRate s.a s.buf, ir := 0, stepCtr := 1 } := by
  have hmicro : microStep .kecAbsorb s.stepCtr.toNat s = .next (kecXorStep s) := by rw [hn]; rfl
  rw [engineStep_pending hp, engineTick_of_next (by rw [hn]; decide) hmicro, advance_more (by simp [kecXorStep, hn, lat])]
  simp [kecXorStep, hn]

/-- Run whole from an idle state KEC_ABSORB has the permutation of the state with the rate block as its effect. -/
theorem exec_kecAbsorb {s : State} (hs : s.pend = none) :
    exec .kecAbsorb s = .next (complete { accept .kecAbsorb s with a := keccakF (xorRate s.a s.buf) }) := by
  have hround (n : Nat) (u : State) (_ : u.ir = BitVec.ofNat 5 n) : microStep .kecAbsorb (1 + n) u = kecRoundStep u :=
    kecAbsorb_micro_succ (by omega) u
  have hlat : lat .kecAbsorb = 24 + 1 := rfl
  rw [exec_eq_runCommand (by decide), runCommand_idle hs, hlat, engineRun_succ, ← engineStep_pending (accept_pend s _),
    engineStep_kecXor (accept_pend s _) (accept_stepCtr s _), andThen_next]
  exact engineRun_keccakF (first := 1) (s := { accept .kecAbsorb s with a := xorRate s.a s.buf }) rfl rfl hround

/-- The padded empty message absorbed into the zero state (spec/42_keccak.md R312, example). -/
theorem keccakF_emptyMessage :
    (keccakF (xorRate (Vector.replicate 25 0) (((Vector.replicate 136 0).set 0 0x01).set 135 0x80))).toList.take 4 =
      [0x3C23F7860146D2C5, 0xC003C7DCB27D7E92, 0x3B2782CA53B600E5, 0x70A4855D04D8FA7B] := by
  decide +kernel

/-- Settles O21: the XOR, then the rounds as for the permutation, one micro-step later. -/
theorem kecAbsorbComputesTheAbsorb : Obligations.KecAbsorbComputesTheAbsorb := by
  refine ⟨?_, fun a b i => ⟨fun hi => ?_, fun hi => ?_⟩, fun s hp hn => engineStep_kecXor hp hn, fun s hp hlo hhi hr => ?_,
    fun s hir => ?_, fun s hp hn hr => ?_, keccakF_emptyMessage⟩
  · exact commandRule_of_exec (i := .kecAbsorb) (by decide) fun s hs => exec_kecAbsorb hs
  · rw [xorRate_getElem, dif_pos hi]
  · rw [xorRate_getElem, dif_neg (by omega)]
  · exact engineStep_kecRound_more hp (kecAbsorb_micro_succ (by omega) s) hr (by rw [lat]; omega)
  · rw [kecAbsorb_micro_succ (by decide), kecRoundStep_next (by rw [hir]; decide)]
    simp [hir]
  · exact engineStep_kecRound_last hp (kecAbsorb_micro_succ (by rw [hn]; decide) s) hr (by rw [hn]; decide)

end Sys2Proof.Stated
end

section
/-! SUPPORT. Digest serialization and the hex encoding: the three commands, and that the encoding loses nothing. -/

namespace Sys2Proof.Stated

open Sys2Proof.Machine

/-- The first bytes of an array, one by one. -/
theorem toList_take_eq_ofFn {n : Nat} (b : Vector Byte n) {k : Nat} (hk : k ≤ n) :
    b.toList.take k = List.ofFn fun j : Fin k => b[j.val] := by
  apply List.ext_getElem
  · simp [hk]
  · intro j _ _
    simp

/-- What a command that follows the common rule goes on to from an idle state. -/
theorem eq_afterCommand_of_rule {i : Instr} {word : Word} {opc : Byte} {effect : State → State} {s t : State}
    (hrule : CommandRule i word opc effect) (hs : s.pend = none) (ht : exec i s = .next t) :
    t = afterCommand (effect (afterAcceptance i opc s)) := by
  obtain ⟨-, -, -, hexec, -⟩ := hrule
  cases (hexec s hs).symm.trans ht
  rfl

/-- While idle the first word of DIGEST is its first four bytes, in little-endian byte lanes (spec/20_memory.md R63). -/
theorem busValue_digest_zero {s : State} (hs : s.pend = none) :
    busValue (at4 0x300 0) .four s = le32 s.digest[0] s.digest[1] s.digest[2] s.digest[3] := by
  rw [busValue_at4 rfl (by decide), show regOfByte (0x300 + 4 * 0) = .dw 0 from rfl, regValue, dataRead_idle hs]
  rfl

/-- While idle the first word of HEX is its first four characters, in little-endian byte lanes (spec/20_memory.md R63). -/
theorem busValue_hex_zero {s : State} (hs : s.pend = none) :
    busValue (at4 0x340 0) .four s = le32 s.hex[0] s.hex[1] s.hex[2] s.hex[3] := by
  rw [busValue_at4 rfl (by decide), show regOfByte (0x340 + 4 * 0) = .hw 0 from rfl, regValue, dataRead_idle hs]
  rfl

/-! ## DIG_SHA -/

/-- The serialization of H by the bit numbers of its bytes (spec/43_digest_hex.md R403). -/
theorem serializeH_eq_ofFn (h : Vector Word 8) :
    serializeH h = Vector.ofFn fun j => (h[j.val / 4]).extractLsb' (24 - 8 * (j.val % 4)) 8 := by
  ext j hj
  simp [serializeH, byteAt, Nat.mul_sub]

theorem digSha_micro (u : State) : microStep .digSha 0 u = .next { u with
    digest := Vector.ofFn fun j => (u.h[j.val / 4]).extractLsb' (24 - 8 * (j.val % 4)) 8 } := by
  rw [← serializeH_eq_ofFn]
  rfl

/-- Settles O22: the micro-step writes the serialization, whose first four bytes are those of H[0]. -/
theorem digShaSerializesBigEndian : Obligations.DigShaSerializesBigEndian := by
  have hrule : CommandRule .digSha 0x00000020 0x20 _ := commandRule_oneStep (i := .digSha) rfl digSha_micro
  refine ⟨hrule, oneMicroStep_of_effect rfl digSha_micro, fun s t hs hh ht => ?_⟩
  rw [eq_afterCommand_of_rule hrule hs ht, toList_take_eq_ofFn _ (by decide), busValue_digest_zero rfl]
  simp [afterCommand, afterAcceptance, hiddenDrawn, hh, le32]

/-! ## DIG_KEC -/

theorem digKec_micro (u : State) : microStep .digKec 0 u = .next { u with
    digest := Vector.ofFn fun j => (u.a[j.val / 8]).extractLsb' (8 * (j.val % 8)) 8 } := rfl

/-- Settles O23: the micro-step writes the serialization, whose first eight bytes are those of A[0]. -/
theorem digKecSerializesLittleEndian : Obligations.DigKecSerializesLittleEndian := by
  have hrule : CommandRule .digKec 0x00000021 0x21 _ := commandRule_oneStep (i := .digKec) rfl digKec_micro
  refine ⟨hrule, oneMicroStep_of_effect rfl digKec_micro, fun s t hs ha ht => ?_⟩
  rw [eq_afterCommand_of_rule hrule hs ht, toList_take_eq_ofFn _ (by decide), busValue_digest_zero rfl]
  simp [afterCommand, afterAcceptance, hiddenDrawn, ha, le32]

/-! ## The hex encoding -/

/-- HexChar by its two ranges: '0' to '9', then 'a' to 'f' (spec/43_digest_hex.md R400). -/
theorem hexChar_toNat (v : BitVec 4) :
    (hexChar v).toNat = if v.toNat ≤ 9 then 0x30 + v.toNat else 0x61 + (v.toNat - 10) := by
  revert v
  decide

theorem hexChar_lowercase (v : BitVec 4) :
    (0x30 ≤ (hexChar v).toNat ∧ (hexChar v).toNat ≤ 0x39) ∨ (0x61 ≤ (hexChar v).toNat ∧ (hexChar v).toNat ≤ 0x66) := by
  rw [hexChar_toNat]
  split <;> omega

theorem hexChar_injective : Function.Injective hexChar := by
  intro v w h
  apply BitVec.eq_of_toNat_eq
  have hn := congrArg BitVec.toNat h
  rw [hexChar_toNat, hexChar_toNat] at hn
  split at hn <;> split at hn <;> omega

/-- Every character of the encoding is that of a nibble. -/
theorem hexEncode_getElem (d : Vector Byte 32) (n : Nat) (hn : n < 64) : (hexEncode d)[n] =
    hexChar (if n % 2 = 0 then (d[n / 2]).extractLsb' 4 4 else (d[n / 2]).extractLsb' 0 4) := by
  simp [hexEncode]

theorem hexEncode_even (d : Vector Byte 32) {j : Nat} (hj : j < 32) :
    (hexEncode d)[2 * j] = hexChar (d[j].extractLsb' 4 4) := by
  simp [hexEncode_getElem]

theorem hexEncode_odd (d : Vector Byte 32) {j : Nat} (hj : j < 32) :
    (hexEncode d)[2 * j + 1] = hexChar (d[j].extractLsb' 0 4) := by
  have hq : (2 * j + 1) / 2 = j := by omega
  simp [hexEncode_getElem, hq]

/-- A byte is its two nibbles. -/
theorem extractLsb'_append_nibbles (b : Byte) : b.extractLsb' 4 4 ++ b.extractLsb' 0 4 = b := by
  rw [BitVec.extractLsb'_append_extractLsb'_eq_extractLsb' (by decide)]
  simp

/-- Equal nibbles in every byte give one character throughout. -/
theorem hexEncode_replicate (v : BitVec 4) :
    hexEncode (Vector.replicate 32 (v ++ v)) = Vector.replicate 64 (hexChar v) := by
  have hhigh : (v ++ v).extractLsb' 4 4 = v := BitVec.extractLsb'_append_eq_left
  have hlow : (v ++ v).extractLsb' 0 4 = v := BitVec.extractLsb'_append_eq_right
  refine Vector.ext fun n hn => ?_
  simp [hexEncode_getElem, hhigh, hlow]

theorem hexEncode_injective : Function.Injective hexEncode := by
  intro d d' h
  refine Vector.ext fun j hj => ?_
  have hhigh : d[j].extractLsb' 4 4 = d'[j].extractLsb' 4 4 := by
    apply hexChar_injective
    rw [← hexEncode_even d hj, ← hexEncode_even d' hj, h]
  have hlow : d[j].extractLsb' 0 4 = d'[j].extractLsb' 0 4 := by
    apply hexChar_injective
    rw [← hexEncode_odd d hj, ← hexEncode_odd d' hj, h]
  rw [← extractLsb'_append_nibbles d[j], hhigh, hlow, extractLsb'_append_nibbles]

/-! ## HEX_ENC -/

theorem hexEnc_micro (u : State) : microStep .hexEnc 0 u = .next { u with hex := hexEncode u.digest } := rfl

theorem commandRule_hexEnc : CommandRule .hexEnc 0x00000022 0x22 (fun s => { s with hex := hexEncode s.digest }) :=
  commandRule_oneStep (i := .hexEnc) rfl hexEnc_micro

/-- HEX_ENC from an idle state writes the encoding of DIGEST and leaves the machine idle. -/
theorem exec_hexEnc_idle {s t : State} (hs : s.pend = none) (ht : exec .hexEnc s = .next t) :
    t.pend = none ∧ t.hex = hexEncode s.digest := by
  obtain rfl := eq_afterCommand_of_rule commandRule_hexEnc hs ht
  exact ⟨rfl, rfl⟩

/-- Settles O24: the micro-step writes the encoding, which is read off character by character. -/
theorem hexEncEncodesDigest : Obligations.HexEncEncodesDigest := by
  refine ⟨commandRule_hexEnc, oneMicroStep_of_effect rfl hexEnc_micro,
    fun d j => ⟨hexEncode_even d j.isLt, hexEncode_odd d j.isLt⟩, hexChar_toNat, fun s t hs h0 h1 ht => ?_,
    hexEncode_replicate 0x0, hexEncode_replicate 0xF⟩
  obtain ⟨hidle, hhex⟩ := exec_hexEnc_idle hs ht
  rw [toList_take_eq_ofFn _ (by decide), busValue_hex_zero hidle, hhex]
  simp [hexEncode_getElem, h0, h1, hexChar, le32]

/-- Settles O36: every character is that of some nibble; the characters of a byte give back its nibbles. -/
theorem hexIsLowercaseAndInjective : Obligations.HexIsLowercaseAndInjective := by
  refine ⟨fun s t hs ht n => ?_, fun d d' h => hexEncode_injective h⟩
  obtain ⟨-, hhex⟩ := exec_hexEnc_idle hs ht
  rw [hhex, Fin.getElem_fin, hexEncode_getElem]
  exact hexChar_lowercase _

end Sys2Proof.Stated
end

section
/-! SUPPORT. The turns of the host procedures: update takes its bytes one by one, and finalization pads the last block. -/

namespace Sys2Proof.Stated

open Sys2Proof.Machine

/-! ## Updates do not depend on the split -/

theorem shaUpdate_append (c : ShaContext) (xs ys : List Byte) : shaUpdate c (xs ++ ys) =
    ((shaUpdate (shaUpdate c xs).1 ys).1, (shaUpdate c xs).2 ++ (shaUpdate (shaUpdate c xs).1 ys).2) := by
  induction xs generalizing c with
  | nil => rfl
  | cons b xs ih => simp [shaUpdate, ih]

theorem kecUpdate_append (c : KecContext) (xs ys : List Byte) : kecUpdate c (xs ++ ys) =
    ((kecUpdate (kecUpdate c xs).1 ys).1, (kecUpdate c xs).2 ++ (kecUpdate (kecUpdate c xs).1 ys).2) := by
  induction xs generalizing c with
  | nil => rfl
  | cons b xs ih => simp [kecUpdate, ih]

/-- Settles O57: each update is a fold over the bytes, whose turns are appended in order. -/
theorem updatesDoNotDependOnTheSplit : Obligations.UpdatesDoNotDependOnTheSplit :=
  ⟨shaUpdate_append, kecUpdate_append⟩

/-! ## The padded last blocks -/

theorem zeroBytes_getElem {n : Nat} (b : Vector Byte n) (lo hi : Nat) {j : Nat} (hj : j < n) :
    (zeroBytes b lo hi)[j] = if lo ≤ j ∧ j < hi then 0 else b[j] := by
  simp [zeroBytes]

/-- The first padding bit in zeroed bytes (spec/45_host_protocol.md R512). -/
theorem zeroBytes_set_or_getElem (blk : Vector Byte 136) (fill j : Fin 136) :
    ((zeroBytes blk fill.val 136).set fill ((zeroBytes blk fill.val 136)[fill] ||| 0x01))[j] =
      if j.val < fill.val then blk[j] else if j.val = fill.val then 0x01 else 0x00 := by
  rw [Fin.getElem_fin, Vector.getElem_set]
  obtain hlt | heq | hgt := Nat.lt_trichotomy j.val fill.val
  · simp [zeroBytes_getElem, hlt, show fill.val ≠ j.val by omega, show ¬fill.val ≤ j.val by omega]
  · simp [zeroBytes_getElem, heq]
  · simp [zeroBytes_getElem, hgt.ne, hgt.ne', hgt.le, hgt.not_gt]

/-- The last padding bit in any block (spec/45_host_protocol.md R512). -/
theorem set_last_or_getElem (b : Vector Byte 136) (j : Fin 136) :
    (b.set 135 (b[135] ||| 0x80))[j] = b[j] ||| (if j.val = 135 then 0x80 else 0x00) := by
  rw [Fin.getElem_fin, Vector.getElem_set]
  by_cases hlast : j.val = 135
  · simp [hlast]
  · simp [hlast, Ne.symm hlast]

theorem kecLastBlock_getElem (blk : Vector Byte 136) (fill j : Fin 136) : (kecLastBlock blk fill)[j] =
    (if j.val < fill.val then blk[j] else if j.val = fill.val then 0x01 else 0x00) |||
      (if j.val = 135 then 0x80 else 0x00) := by
  rw [kecLastBlock, set_last_or_getElem, zeroBytes_set_or_getElem]

/-- Settles O58: the two padding bits fall into zeroed bytes, and finalization is by definition the turns with that block. -/
theorem keccakPaddingBytes : Obligations.KeccakPaddingBytes :=
  ⟨kecLastBlock_getElem, fun c => ⟨kecLastBlock c.blk c.fill, kecLastBlock_getElem c.blk c.fill, rfl⟩⟩

/-- The array with the byte 0x80 set at fill and zeros after it (spec/45_host_protocol.md R504). -/
theorem zeroBytes_set_getElem (blk : Vector Byte 64) (fill : Fin 64) {hi j : Nat} (hj : j < 64) (hhi : j < hi) :
    (zeroBytes (blk.set fill 0x80) (fill.val + 1) hi)[j] =
      if j < fill.val then blk[j] else if j = fill.val then 0x80 else 0x00 := by
  rw [zeroBytes_getElem, Vector.getElem_set]
  obtain hlt | heq | hgt := Nat.lt_trichotomy j fill.val
  · rw [if_neg (by omega), if_neg hlt.ne', if_pos hlt]
  · rw [if_neg (by omega), if_pos heq.symm, if_neg heq.not_lt, if_pos heq]
  · rw [if_pos ⟨hgt, hhi⟩, if_neg hgt.not_gt, if_neg hgt.ne']

theorem shaLastBlock_getElem (blk : Vector Byte 64) (fill : Nat) (len : BitVec 64) {j : Nat} (hj : j < 64) :
    (shaLastBlock blk fill len)[j] = if 56 ≤ j then byteAt len (63 - j) else (zeroBytes blk fill 56)[j] := by
  simp [shaLastBlock]

/-- Settles O59: where the length has no room behind the byte 0x80, the last block is that of an empty remainder. -/
theorem shaPaddingBytes : Obligations.ShaPaddingBytes := by
  intro c
  by_cases hfill : c.fill.val < 56
  · refine ⟨zeroBytes (c.blk.set c.fill 0x80) (c.fill.val + 1) 64,
      shaLastBlock (c.blk.set c.fill 0x80) (c.fill.val + 1) (c.totalBits + BitVec.ofNat 64 (8 * c.fill.val)), ?_,
      fun j => zeroBytes_set_getElem _ _ j.isLt j.isLt, fun j => ?_⟩
    · simp [shaFinal, hfill, show ¬56 < c.fill.val + 1 by omega]
    · rw [Fin.getElem_fin, shaLastBlock_getElem, if_pos hfill]
      refine ite_congr rfl (fun _ => rfl) fun hj => ?_
      rw [zeroBytes_set_getElem _ _ _ (by omega), Fin.getElem_fin, zeroBytes_set_getElem _ _ _ (by omega)]
  · refine ⟨zeroBytes (c.blk.set c.fill 0x80) (c.fill.val + 1) 64,
      shaLastBlock (zeroBytes (c.blk.set c.fill 0x80) (c.fill.val + 1) 64) 0
        (c.totalBits + BitVec.ofNat 64 (8 * c.fill.val)), ?_,
      fun j => zeroBytes_set_getElem _ _ j.isLt j.isLt, fun j => ?_⟩
    · simp [shaFinal, hfill, show 56 < c.fill.val + 1 by omega]
    · rw [Fin.getElem_fin, shaLastBlock_getElem, if_neg hfill]
      refine ite_congr rfl (fun _ => rfl) fun hj => ?_
      rw [zeroBytes_getElem, if_pos (by omega)]

end Sys2Proof.Stated
end

section
/-! SUPPORT. The host procedures as the transforms of the padded message's blocks, and how many of them there are. -/

namespace Sys2Proof.Stated

open Sys2Proof.Machine

/-! ## Transforms of the blocks of a byte sequence -/

/-- The turns of one SHA-256 transform (spec/45_host_protocol.md R503). -/
def shaTransform (b : Vector Byte 64) : List Turn :=
  ldbuf64 b.toList ++ run .shaCompress

/-- The turns of one Keccak transform (spec/45_host_protocol.md R511). -/
def kecTransform (b : Vector Byte 136) : List Turn :=
  ldbuf b.toList ++ run .kecAbsorb

/-- The transforms of the first k blocks of a byte sequence. -/
def blockTurns {n : Nat} (transform : Vector Byte n → List Turn) (p : List Byte) (k : Nat) : List Turn :=
  (List.range k).flatMap fun j => transform (blockOf n p j)

/-- What update leaves after the bytes msg: the transforms of its whole blocks, and the other bytes in the host array
(spec/45_host_protocol.md R501, R503, R511). -/
structure Buffered {n : Nat} (transform : Vector Byte n → List Turn) (msg : List Byte) (fill : Nat) (blk : Vector Byte n)
    (ts : List Turn) : Prop where
  fill_eq : fill = msg.length % n
  bytes : ∀ j (hj : j < n), j < fill → blk[j] = msg.getD (n * (msg.length / n) + j) 0
  turns : ts = blockTurns transform msg (msg.length / n)

section
variable {n : Nat} (transform : Vector Byte n → List Turn)

theorem blockOf_getElem (p : List Byte) (j : Nat) {i : Nat} (hi : i < n) : (blockOf n p j)[i] = p.getD (n * j + i) 0 := by
  simp [blockOf]

theorem blockTurns_succ (p : List Byte) (k : Nat) :
    blockTurns transform p (k + 1) = blockTurns transform p k ++ transform (blockOf n p k) := by
  simp [blockTurns, List.range_succ]

/-- What follows a byte sequence does not change its whole blocks. -/
theorem blockOf_append (p q : List Byte) {j : Nat} (hj : j < p.length / n) : blockOf n (p ++ q) j = blockOf n p j := by
  refine Vector.ext fun i hi => ?_
  have hlen : n * j + i < p.length := by
    calc n * j + i < n * (j + 1) := by rw [Nat.mul_succ]; omega
      _ ≤ n * (p.length / n) := Nat.mul_le_mul_left n hj
      _ ≤ p.length := Nat.mul_div_le ..
  rw [blockOf_getElem, blockOf_getElem, List.getD_append _ _ _ _ hlen]

theorem blockTurns_append (p q : List Byte) {k : Nat} (hk : k ≤ p.length / n) :
    blockTurns transform (p ++ q) k = blockTurns transform p k := by
  induction k with
  | zero => rfl
  | succ k ih => rw [blockTurns_succ, blockTurns_succ, ih (by omega), blockOf_append _ _ hk]

variable {transform}

theorem buffered_nil (blk : Vector Byte n) : Buffered transform [] 0 blk [] := by
  constructor <;> simp [blockTurns]

variable {msg : List Byte} {fill : Nat} {blk : Vector Byte n} {ts : List Turn} (h : Buffered transform msg fill blk ts)
  (b : Byte) (hfill : fill < n)
include h

theorem buffered_length : n * (msg.length / n) + fill = msg.length := by
  rw [h.fill_eq, Nat.div_add_mod]

include hfill

/-- The bytes in the host array with one more byte. -/
theorem buffered_set_getElem {j : Nat} (hj : j < n) (hjf : j < fill + 1) :
    (blk.set fill b)[j] = (msg ++ [b]).getD (n * (msg.length / n) + j) 0 := by
  have hlen := buffered_length h
  rw [Vector.getElem_set]
  by_cases hlast : fill = j
  · rw [if_pos hlast, ← hlast, hlen]
    simp
  · rw [if_neg hlast, List.getD_append _ _ _ _ (by omega)]
    exact h.bytes j hj (by omega)

/-- One more byte where the block has room after it. -/
theorem buffered_more (hroom : fill + 1 < n) : Buffered transform (msg ++ [b]) (fill + 1) (blk.set fill b) ts := by
  have hlen := buffered_length h
  obtain ⟨hdiv, hmod⟩ : (msg ++ [b]).length / n = msg.length / n ∧ (msg ++ [b]).length % n = fill + 1 :=
    (Nat.div_mod_unique (by omega)).2 ⟨by rw [List.length_append, List.length_singleton]; omega, hroom⟩
  refine ⟨hmod.symm, fun j hj hjf => ?_, ?_⟩
  · rw [hdiv]
    exact buffered_set_getElem h b hfill hj hjf
  · rw [hdiv, blockTurns_append _ _ _ le_rfl]
    exact h.turns

/-- One more byte that completes the block, which is transformed. -/
theorem buffered_full (hfull : ¬fill + 1 < n) (blk' : Vector Byte n) :
    Buffered transform (msg ++ [b]) 0 blk' (ts ++ transform (blk.set fill b)) := by
  have hlen := buffered_length h
  obtain ⟨hdiv, hmod⟩ : (msg ++ [b]).length / n = msg.length / n + 1 ∧ (msg ++ [b]).length % n = 0 :=
    (Nat.div_mod_unique (by omega)).2
      ⟨by rw [Nat.mul_succ, List.length_append, List.length_singleton]; omega, by omega⟩
  refine ⟨hmod.symm, fun j _ hj => absurd hj (by omega), ?_⟩
  have hblock : blk.set fill b = blockOf n (msg ++ [b]) (msg.length / n) :=
    Vector.ext fun j hj => by
      rw [blockOf_getElem]
      exact buffered_set_getElem h b hfill hj (by omega)
  rw [hdiv, blockTurns_succ, blockTurns_append _ _ _ le_rfl, ← hblock, ← h.turns]

end

/-- sha256's update after init: the whole blocks are transformed and counted in bits. -/
theorem shaUpdate_buffered (blk : Vector Byte 64) (msg : List Byte) :
    Buffered shaTransform msg (shaUpdate (shaStart blk).1 msg).1.fill (shaUpdate (shaStart blk).1 msg).1.blk
      (shaUpdate (shaStart blk).1 msg).2 ∧
    (shaUpdate (shaStart blk).1 msg).1.totalBits = BitVec.ofNat 64 (512 * (msg.length / 64)) := by
  induction msg using List.reverseRecOn with
  | nil => exact ⟨buffered_nil blk, rfl⟩
  | append_singleton msg b ih =>
    obtain ⟨h, hbits⟩ := ih
    rw [shaUpdate_append]
    generalize shaUpdate (shaStart blk).1 msg = r at h hbits ⊢
    obtain ⟨⟨fill, blk, bits⟩, ts⟩ := r
    have hlen : 64 * (msg.length / 64) + fill.val = msg.length := buffered_length h
    have hsnoc : (msg ++ [b]).length = msg.length + 1 := List.length_append
    by_cases hroom : fill.val + 1 < 64
    · simp only [shaUpdate, shaUpdateByte, hroom, dif_pos, List.append_nil]
      refine ⟨buffered_more h b fill.isLt hroom, ?_⟩
      rw [show (msg ++ [b]).length / 64 = msg.length / 64 by omega]
      exact hbits
    · simp only [shaUpdate, shaUpdateByte, hroom, dif_neg, not_false_iff, List.append_nil]
      refine ⟨buffered_full h b fill.isLt hroom _, ?_⟩
      rw [show (msg ++ [b]).length / 64 = msg.length / 64 + 1 by omega, Nat.mul_succ, BitVec.ofNat_add]
      exact congrArg (· + 512) hbits

/-- keccak256's update after init: the whole blocks are transformed. -/
theorem kecUpdate_buffered (blk : Vector Byte 136) (msg : List Byte) :
    Buffered kecTransform msg (kecUpdate (kecStart blk).1 msg).1.fill (kecUpdate (kecStart blk).1 msg).1.blk
      (kecUpdate (kecStart blk).1 msg).2 := by
  induction msg using List.reverseRecOn with
  | nil => exact buffered_nil blk
  | append_singleton msg b h =>
    rw [kecUpdate_append]
    generalize kecUpdate (kecStart blk).1 msg = r at h ⊢
    obtain ⟨⟨fill, blk⟩, ts⟩ := r
    by_cases hroom : fill.val + 1 < 136
    · simp only [kecUpdate, kecUpdateByte, hroom, dif_pos, List.append_nil]
      exact buffered_more h b fill.isLt hroom
    · simp only [kecUpdate, kecUpdateByte, hroom, dif_neg, not_false_iff, List.append_nil]
      exact buffered_full h b fill.isLt hroom _

/-! ## The padded message -/

/-- A first byte, zeros, and a rest, byte by byte. -/
theorem padding_getD (a : Byte) (z : Nat) (t : List Byte) (i : Nat) :
    ([a] ++ List.replicate z 0x00 ++ t).getD i 0 = if i = 0 then a else if i ≤ z then 0x00 else t.getD (i - (z + 1)) 0 := by
  cases i with
  | zero => rfl
  | succ i =>
    rw [List.append_assoc, List.singleton_append, List.getD_cons_succ, if_neg i.succ_ne_zero]
    by_cases hi : i + 1 ≤ z
    · rw [List.getD_append _ _ _ _ (by simpa using hi), if_pos hi]
      simp [Nat.lt_of_succ_le hi]
    · rw [List.getD_append_right _ _ _ _ (by simpa using hi), if_neg hi, List.length_replicate, Nat.add_sub_add_right]

theorem kecPadded_length (msg : List Byte) : (kecPadded msg).length = 136 * (msg.length / 136 + 1) := by
  unfold kecPadded
  split <;> simp only [List.length_append, List.length_replicate, List.length_singleton] <;> omega

/-- The bytes of the padded message's last block (spec/45_host_protocol.md R512). -/
theorem kecPadded_getD (msg : List Byte) {j : Nat} (hj : j < 136) :
    (kecPadded msg).getD (136 * (msg.length / 136) + j) 0 =
      (if j < msg.length % 136 then msg.getD (136 * (msg.length / 136) + j) 0
        else if j = msg.length % 136 then 0x01 else 0x00) ||| (if j = 135 then 0x80 else 0x00) := by
  have hlen := Nat.div_add_mod msg.length 136
  unfold kecPadded
  by_cases hbuf : j < msg.length % 136
  · rw [List.getD_append _ _ _ _ (by omega), if_pos hbuf, if_neg (by omega)]
    exact BitVec.or_zero.symm
  · rw [List.getD_append_right _ _ _ _ (by omega), if_neg hbuf,
      show 136 * (msg.length / 136) + j - msg.length = j - msg.length % 136 by omega]
    by_cases hboth : msg.length % 136 = 135
    · obtain rfl : j = 135 := by omega
      rw [if_pos hboth, hboth]
      rfl
    · rw [if_neg hboth, padding_getD]
      obtain hfirst | ⟨hne, hlast⟩ | ⟨hgt, hlt⟩ : j = msg.length % 136 ∨ j ≠ msg.length % 136 ∧ j = 135 ∨
          msg.length % 136 < j ∧ j < 135 := by omega
      · rw [if_pos (by omega), if_pos hfirst, if_neg (by omega)]
        rfl
      · rw [if_neg (by omega), if_neg (by omega), if_neg hne, if_pos hlast,
          show j - msg.length % 136 - (134 - msg.length % 136 + 1) = 0 by omega]
        rfl
      · rw [if_neg (by omega), if_pos (by omega), if_neg hgt.ne', if_neg hlt.ne]
        rfl

/-- Where the bit length stands in the padded message, from the start of the block that holds the message's end: in that block
or in the next (spec/45_host_protocol.md R504). -/
def lengthOffset (msg : List Byte) : Nat :=
  if msg.length % 64 ≤ 55 then 56 else 120

theorem shaPadded_length (msg : List Byte) :
    (shaPadded msg).length = 64 * (msg.length / 64) + lengthOffset msg + 8 := by
  simp only [shaPadded, lengthOffset, List.length_append, List.length_replicate, List.length_singleton, List.length_map,
    List.length_range]
  split <;> omega

/-- The bytes of the padded message from the block that holds the message's end (spec/45_host_protocol.md R504). -/
theorem shaPadded_getD (msg : List Byte) {j : Nat} (hj : j < lengthOffset msg + 8) :
    (shaPadded msg).getD (64 * (msg.length / 64) + j) 0 =
      if lengthOffset msg ≤ j then byteAt (BitVec.ofNat 64 (8 * msg.length)) (lengthOffset msg + 7 - j)
      else if j < msg.length % 64 then msg.getD (64 * (msg.length / 64) + j) 0
      else if j = msg.length % 64 then 0x80 else 0x00 := by
  have hlen := Nat.div_add_mod msg.length 64
  have hzeros : msg.length % 64 + (119 - msg.length % 64) % 64 + 1 = lengthOffset msg := by
    unfold lengthOffset
    split <;> omega
  unfold shaPadded
  rw [List.append_assoc, List.append_assoc, ← List.append_assoc [0x80]]
  by_cases hbuf : j < msg.length % 64
  · rw [List.getD_append _ _ _ _ (by omega), if_neg (by omega), if_pos hbuf]
  · rw [List.getD_append_right _ _ _ _ (by omega), padding_getD, if_neg hbuf,
      show 64 * (msg.length / 64) + j - msg.length = j - msg.length % 64 by omega]
    by_cases hlength : lengthOffset msg ≤ j
    · rw [if_pos hlength, if_neg (by omega), if_neg (by omega), List.getD_eq_getElem _ _ (by simp; omega)]
      simp only [List.getElem_map, List.getElem_range]
      congr 1
      omega
    · rw [if_neg hlength]
      by_cases hmark : j = msg.length % 64
      · rw [if_pos (by omega), if_pos hmark]
      · rw [if_neg (by omega), if_pos (by omega), if_neg hmark]

/-- How many blocks the padded message has (spec/45_host_protocol.md R506). -/
theorem shaPadded_blocks (msg : List Byte) :
    (shaPadded msg).length / 64 = msg.length / 64 + if msg.length % 64 ≤ 55 then 1 else 2 := by
  rw [shaPadded_length, lengthOffset]
  split <;> omega

section
variable {msg : List Byte} {j : Nat} (hj : j < 64)
include hj

/-- The last block where the length has room behind the byte 0x80. -/
theorem shaPadded_block_of_room (hroom : msg.length % 64 ≤ 55) : (blockOf 64 (shaPadded msg) (msg.length / 64))[j] =
    if 56 ≤ j then byteAt (BitVec.ofNat 64 (8 * msg.length)) (63 - j)
    else if j < msg.length % 64 then msg.getD (64 * (msg.length / 64) + j) 0
    else if j = msg.length % 64 then 0x80 else 0x00 := by
  have hoff : lengthOffset msg = 56 := if_pos hroom
  rw [blockOf_getElem, shaPadded_getD msg (by omega), hoff]

/-- The last block but one where the length has no room behind the byte 0x80. -/
theorem shaPadded_block_of_noRoom (hroom : ¬msg.length % 64 ≤ 55) : (blockOf 64 (shaPadded msg) (msg.length / 64))[j] =
    if j < msg.length % 64 then msg.getD (64 * (msg.length / 64) + j) 0
    else if j = msg.length % 64 then 0x80 else 0x00 := by
  have hoff : lengthOffset msg = 120 := if_neg hroom
  rw [blockOf_getElem, shaPadded_getD msg (by omega), if_neg (by omega)]

/-- The last block where the length has a block of its own. -/
theorem shaPadded_lengthBlock (hroom : ¬msg.length % 64 ≤ 55) :
    (blockOf 64 (shaPadded msg) (msg.length / 64 + 1))[j] =
      if 56 ≤ j then byteAt (BitVec.ofNat 64 (8 * msg.length)) (63 - j) else 0x00 := by
  have hoff : lengthOffset msg = 120 := if_neg hroom
  rw [blockOf_getElem, Nat.mul_succ, Nat.add_assoc, shaPadded_getD msg (by omega), hoff]
  by_cases hlength : 56 ≤ j
  · rw [if_pos hlength, if_pos (by omega), show 120 + 7 - (64 + j) = 63 - j by omega]
  · rw [if_neg hlength, if_neg (by omega), if_neg (by omega), if_neg (by omega)]

end

/-! ## The procedures as the transforms of the padded message -/

/-- The turns that end a procedure: serialize, encode, read the string (spec/45_host_protocol.md R505, R512). -/
def digestTurns (i : Instr) : List Turn :=
  run i ++ run .hexEnc ++ rdhex

/-- sha256's finalization after update: the transforms of the padded message go on where those of update end. -/
theorem shaFinal_eq_blockTurns {c : ShaContext} {msg : List Byte} {ts : List Turn}
    (h : Buffered shaTransform msg c.fill c.blk ts) (hbits : c.totalBits = BitVec.ofNat 64 (512 * (msg.length / 64))) :
    ts ++ shaFinal c =
      blockTurns shaTransform (shaPadded msg) ((shaPadded msg).length / 64) ++ digestTurns .digSha := by
  obtain ⟨first, last, hfinal, hfirst, hlast⟩ := shaPaddingBytes c
  have hfill := h.fill_eq
  have hlen : c.totalBits + BitVec.ofNat 64 (8 * (msg.length % 64)) = BitVec.ofNat 64 (8 * msg.length) := by
    rw [hbits, ← BitVec.ofNat_add]
    congr 1
    omega
  have hts : ts = blockTurns shaTransform (shaPadded msg) (msg.length / 64) := by
    rw [h.turns, shaPadded, List.append_assoc, List.append_assoc, blockTurns_append _ _ _ le_rfl]
  simp only [Fin.forall_iff, Fin.getElem_fin, hfill, hlen] at hfirst hlast
  have hmark (j : Nat) (hj : j < 64) : first[j] =
      if j < msg.length % 64 then msg.getD (64 * (msg.length / 64) + j) 0
      else if j = msg.length % 64 then 0x80 else 0x00 := by
    rw [hfirst j hj]
    split
    · exact h.bytes j hj (by omega)
    · rfl
  rw [hfinal, hts, shaPadded_blocks]
  by_cases hroom : msg.length % 64 < 56
  · have hlastBlock : last = blockOf 64 (shaPadded msg) (msg.length / 64) := Vector.ext fun j hj => by
      rw [shaPadded_block_of_room hj (by omega), hlast j hj, if_pos hroom, hmark j hj, byteAt]
    rw [if_pos (by omega), if_pos (by omega), blockTurns_succ, ← hlastBlock]
    simp [shaTransform, digestTurns]
  · have hfirstBlock : first = blockOf 64 (shaPadded msg) (msg.length / 64) := Vector.ext fun j hj => by
      rw [shaPadded_block_of_noRoom hj (by omega), hmark j hj]
    have hlastBlock : last = blockOf 64 (shaPadded msg) (msg.length / 64 + 1) := Vector.ext fun j hj => by
      rw [shaPadded_lengthBlock hj (by omega), hlast j hj, if_neg hroom, byteAt]
    rw [if_neg (by omega), if_neg (by omega), blockTurns_succ, blockTurns_succ, ← hlastBlock, ← hfirstBlock]
    simp [shaTransform, digestTurns]

/-- keccak256's finalization after update: one more transform of the padded message. -/
theorem kecFinal_eq_blockTurns {c : KecContext} {msg : List Byte} {ts : List Turn}
    (h : Buffered kecTransform msg c.fill c.blk ts) :
    ts ++ kecFinal c =
      blockTurns kecTransform (kecPadded msg) ((kecPadded msg).length / 136) ++ digestTurns .digKec := by
  have hts : ts = blockTurns kecTransform (kecPadded msg) (msg.length / 136) := by
    rw [h.turns, kecPadded, blockTurns_append _ _ _ le_rfl]
  have hlastBlock : kecLastBlock c.blk c.fill = blockOf 136 (kecPadded msg) (msg.length / 136) :=
    Vector.ext fun j hj => by
      rw [blockOf_getElem, kecPadded_getD msg hj, ← Fin.getElem_fin (kecLastBlock c.blk c.fill) ⟨j, hj⟩,
        kecLastBlock_getElem, ← h.fill_eq]
      congr 1
      split
      · exact h.bytes j hj ‹_›
      · rfl
  rw [kecPadded_length, Nat.mul_div_cancel_left _ (by decide), blockTurns_succ, ← hlastBlock, ← hts]
  simp [kecFinal, kecTransform, digestTurns]

/-- Below the limit sha256 is its init, the transforms of the padded message and the reading of the digest
(spec/45_host_protocol.md R502 to R507). -/
theorem sha256Turns_eq (blk : Vector Byte 64) {msg : List Byte} (hlen : msg.length < 2 ^ 61) : sha256Turns blk msg =
    some (run .shaInit ++
      (blockTurns shaTransform (shaPadded msg) ((shaPadded msg).length / 64) ++ digestTurns .digSha)) := by
  obtain ⟨h, hbits⟩ := shaUpdate_buffered blk msg
  rw [← shaFinal_eq_blockTurns h hbits, ← List.append_assoc]
  exact if_pos hlen

/-- keccak256 is its init, the transforms of the padded message and the reading of the digest
(spec/45_host_protocol.md R510 to R512). -/
theorem keccak256Turns_eq (blk : Vector Byte 136) (msg : List Byte) : keccak256Turns blk msg =
    run .kecInit ++
      (blockTurns kecTransform (kecPadded msg) ((kecPadded msg).length / 136) ++ digestTurns .digKec) := by
  rw [← kecFinal_eq_blockTurns (kecUpdate_buffered blk msg), ← List.append_assoc]
  rfl

/-! ## How many transforms there are -/

theorem commandCount_append (i : Instr) (xs ys : List Turn) :
    commandCount i (xs ++ ys) = commandCount i xs + commandCount i ys :=
  List.countP_append

/-- Two commands have different words (spec/30_encoding.md R103). -/
theorem encode_injective : Function.Injective encode := by
  intro i j h
  have hd := decode_encode i
  rw [h, decode_encode j] at hd
  cases hd
  rfl

theorem commandCount_run (i j : Instr) : commandCount i (run j) = if j = i then 1 else 0 := by
  have hcmd : cmd j = cmd i ↔ j = i := by
    simp [cmd, wr, wrSize, encode_injective.eq_iff]
  have hwait : Turn.wait ≠ cmd i := nofun
  simp [commandCount, run, List.countP_cons, hcmd, hwait]

/-- The words of the buffer do not stand at CMD (spec/20_memory.md R62). -/
theorem commandCount_loadWords (i : Instr) {n : Nat} (hn : n ≤ 34) (b : List Byte) : commandCount i (loadWords n b) = 0 := by
  simp only [commandCount, List.countP_eq_zero, loadWords, List.mem_map, List.mem_range]
  rintro t ⟨k, hk, rfl⟩
  have hoff : BitVec.ofNat 10 (0x080 + 4 * k) ≠ BitVec.ofNat 10 0x004 := by
    intro h
    have hn := congrArg BitVec.toNat h
    rw [BitVec.toNat_ofNat, BitVec.toNat_ofNat, Nat.mod_eq_of_lt (by omega), Nat.mod_eq_of_lt (by decide)] at hn
    omega
  simp [wr, wrSize, cmd, hoff]

theorem commandCount_digestTurns (i j : Instr) (hj : j ≠ i) (hhex : .hexEnc ≠ i) : commandCount i (digestTurns j) = 0 := by
  have hread : commandCount i rdhex = 0 := by
    simp [commandCount, rdhex, rd, rdSize, cmd, wr, wrSize]
  simp [digestTurns, commandCount_append, commandCount_run, hread, hj, hhex]

theorem commandCount_blockTurns {n : Nat} {transform : Vector Byte n → List Turn} {i : Instr}
    (h : ∀ b, commandCount i (transform b) = 1) (p : List Byte) (k : Nat) :
    commandCount i (blockTurns transform p k) = k := by
  induction k with
  | zero => rfl
  | succ k ih => rw [blockTurns_succ, commandCount_append, ih, h]

/-- Settles O55: one command for each block of the padded message. -/
theorem shaTransformCount : Obligations.ShaTransformCount := by
  intro blk msg
  refine ⟨fun hlen => ⟨_, sha256Turns_eq blk hlen, ?_⟩, fun hlen => if_neg (by omega)⟩
  have htransform (b : Vector Byte 64) : commandCount .shaCompress (shaTransform b) = 1 := by
    simp [shaTransform, ldbuf64, commandCount_append, commandCount_loadWords, commandCount_run]
  rw [commandCount_append, commandCount_append, commandCount_run, commandCount_blockTurns htransform,
    commandCount_digestTurns _ _ (by decide) (by decide), shaPadded_blocks]
  simp

/-- Settles O56: one command for each block of the padded message. -/
theorem keccakTransformCount : Obligations.KeccakTransformCount := by
  intro blk msg
  have htransform (b : Vector Byte 136) : commandCount .kecAbsorb (kecTransform b) = 1 := by
    simp [kecTransform, ldbuf, commandCount_append, commandCount_loadWords, commandCount_run]
  rw [keccak256Turns_eq, commandCount_append, commandCount_append, commandCount_run,
    commandCount_blockTurns htransform, commandCount_digestTurns _ _ (by decide) (by decide), kecPadded_length]
  simp

end Sys2Proof.Stated
end

section
/-! SUPPORT. The host procedures as runs of the machine: the turns that load a block, run a command and read the string, one
after another, up to the digest of the whole message. -/

namespace Sys2Proof.Stated

open Sys2Proof.Machine

/-! ## Runs that give the host no word -/

/-- The turns take s to the idle machine u, give the host's program no word and record no error. -/
structure RunsTo (ts : List Turn) (s u : State) : Prop where
  run : hostTurns ts s = some (u, [])
  idle : u.pend = none
  err : u.err = s.err
  errcode : u.errcode = s.errcode

theorem runsTo_nil {s : State} (hs : s.pend = none) : RunsTo [] s s :=
  ⟨rfl, hs, rfl, rfl⟩

theorem hostTurns_append_of_runsTo {xs : List Turn} {s u : State} (h : RunsTo xs s u) (ys : List Turn) :
    hostTurns (xs ++ ys) s = hostTurns ys u := by
  rw [hostTurns_append, h.run]
  simp

theorem runsTo_append {xs ys : List Turn} {s u z : State} (h : RunsTo xs s u) (h' : RunsTo ys u z) :
    RunsTo (xs ++ ys) s z :=
  ⟨(hostTurns_append_of_runsTo h ys).trans h'.run, h'.idle, h'.err.trans h.err, h'.errcode.trans h.errcode⟩

/-- From an idle state the turns of run are the whole command, up to the host's own fields. -/
theorem runsTo_run {i : Instr} {s t : State} (hi : i ≠ .softReset) (hs : s.pend = none) (ht : exec i s = .next t) :
    ∃ r, RunsTo (run i) s (withHost r [] t) := by
  obtain ⟨u, hu, rfl⟩ := exec_idle_keepsFrame hi hs ht
  refine ⟨some (statusWord (complete u)), ?_, rfl, hu.err, hu.errcode⟩
  rw [← List.append_nil (run i), hostTurns_run hi hs ht]
  rfl

/-- A command of one micro-step has its effect between acceptance and completion. -/
theorem exec_oneStep {i : Instr} {effect : State → State} (hlat : lat i = 1)
    (hmicro : ∀ u, microStep i 0 u = .next (effect u)) {s : State} (hs : s.pend = none) :
    exec i s = .next (complete (effect (accept i s))) := by
  obtain ⟨-, -, -, hexec, -⟩ := commandRule_oneStep hlat hmicro
  exact hexec s hs

/-! ## Loading a block -/

/-- A write to word k of BUF stores it (spec/20_memory.md R71). -/
theorem runsTo_wrBuf {s : State} (hs : s.pend = none) (k : Fin 34) (v : Word) : RunsTo [wr (0x080 + 4 * k.val) v] s
    { s with turns := [], buf := setBusWord (n := 34) s.buf k v } := by
  have hstore : transact (.write (at4 0x080 k.val) .four v) { s with turns := [] } =
      { s with turns := [], buf := setBusWord (n := 34) s.buf k v } := by
    rw [write_at4 rfl (by omega), regOfByte_bufw, regWrite, dataWrite_idle (s := { s with turns := [] }) hs]
  refine ⟨?_, hs, rfl, rfl⟩
  show hostTurns [.bus (.write (at4 0x080 k.val) .four v)] s = _
  rw [hostTurns_bus, hstore]
  rfl

/-- Word k that ldbuf writes (spec/30_encoding.md R108). -/
def loadedWord (b : List Byte) (k : Nat) : Word :=
  le32 (b.getD (4 * k) 0) (b.getD (4 * k + 1) 0) (b.getD (4 * k + 2) 0) (b.getD (4 * k + 3) 0)

theorem loadWords_succ (n : Nat) (b : List Byte) :
    loadWords (n + 1) b = loadWords n b ++ [wr (0x080 + 4 * n) (loadedWord b n)] := by
  simp [loadWords, loadedWord, List.range_succ]

theorem byteAt_loadedWord (b : List Byte) (k : Nat) {m : Nat} (hm : m < 4) :
    byteAt (loadedWord b k) m = b.getD (4 * k + m) 0 := by
  rw [loadedWord, byteAt_le32 _ _ _ _ ⟨m, hm⟩]
  interval_cases m <;> rfl

/-- Loading n words of a byte sequence: the first 4n bytes of BUF are its bytes, and H and A stay. -/
theorem runsTo_loadWords {n : Nat} (hn : n ≤ 34) (b : List Byte) {s : State} (hs : s.pend = none) :
    ∃ u, RunsTo (loadWords n b) s u ∧ u.h = s.h ∧ u.a = s.a ∧
      ∀ j (hj : j < 136), j < 4 * n → u.buf[j] = b.getD j 0 := by
  induction n with
  | zero => exact ⟨s, runsTo_nil hs, rfl, rfl, fun j _ hj => absurd hj (by omega)⟩
  | succ n ih =>
    obtain ⟨u, hu, hh, ha, hbuf⟩ := ih (by omega)
    have hword := runsTo_wrBuf hu.idle ⟨n, by omega⟩ (loadedWord b n)
    rw [loadWords_succ]
    refine ⟨_, runsTo_append hu hword, hh, ha, fun j hj hlt => ?_⟩
    refine (setBusWord_getElem (n := 34) u.buf ⟨n, by omega⟩ _ ⟨j, hj⟩).trans ?_
    by_cases hlast : j / 4 = n
    · rw [if_pos hlast, byteAt_loadedWord b n (by omega), show 4 * n + j % 4 = j by omega]
    · rw [if_neg hlast]
      exact hbuf j hj (by omega)

/-- A SHA-256 transform compresses its block into H (spec/45_host_protocol.md R503). -/
theorem runsTo_shaTransform (b : Vector Byte 64) {s : State} (hs : s.pend = none) :
    ∃ u, RunsTo (shaTransform b) s u ∧ u.h = compress s.h (shaWords b) := by
  obtain ⟨u, hu, hh, -, hbuf⟩ := runsTo_loadWords (n := 16) (by decide) b.toList hs
  obtain ⟨r, hrun⟩ := runsTo_run (by decide) hu.idle (exec_shaCompress hu.idle)
  have hbyte (j : Nat) (hj : j < 64) : u.buf[j] = b[j] := by
    rw [hbuf j (by omega) (by omega)]
    simp [hj]
  have hwords : blockWords u.buf = shaWords b :=
    Vector.ext fun t ht => by simp [blockWords, shaWords, hbyte _ (show 4 * t < 64 by omega),
      hbyte _ (show 4 * t + 1 < 64 by omega), hbyte _ (show 4 * t + 2 < 64 by omega), hbyte _ (show 4 * t + 3 < 64 by omega)]
  refine ⟨_, runsTo_append hu hrun, ?_⟩
  show compress u.h (blockWords u.buf) = _
  rw [hwords, hh]

/-- A Keccak transform absorbs its block into A (spec/45_host_protocol.md R511). -/
theorem runsTo_kecTransform (b : Vector Byte 136) {s : State} (hs : s.pend = none) :
    ∃ u, RunsTo (kecTransform b) s u ∧ u.a = keccakF (xorRate s.a b) := by
  obtain ⟨u, hu, -, ha, hbuf⟩ := runsTo_loadWords (n := 34) (by decide) b.toList hs
  obtain ⟨r, hrun⟩ := runsTo_run (by decide) hu.idle (exec_kecAbsorb hu.idle)
  have hblock : u.buf = b :=
    Vector.ext fun j hj => by
      rw [hbuf j hj (by omega)]
      simp [hj]
  refine ⟨_, runsTo_append hu hrun, ?_⟩
  show keccakF (xorRate u.a u.buf) = _
  rw [hblock, ha]

/-- Transforms of blocks in a row fold the blocks into the register that each one updates. -/
theorem runsTo_blockTurns {n : Nat} {α : Type} {transform : Vector Byte n → List Turn} {reg : State → α}
    {f : α → Vector Byte n → α}
    (htransform : ∀ (b : Vector Byte n) {s : State}, s.pend = none → ∃ u, RunsTo (transform b) s u ∧ reg u = f (reg s) b)
    {p : List Byte} {chain : Nat → α} (hchain : ∀ j, chain (j + 1) = f (chain j) (blockOf n p j))
    {s : State} (hs : s.pend = none) (hreg : reg s = chain 0) (k : Nat) :
    ∃ u, RunsTo (blockTurns transform p k) s u ∧ reg u = chain k := by
  induction k with
  | zero => exact ⟨s, runsTo_nil hs, hreg⟩
  | succ k ih =>
    obtain ⟨u, hu, hk⟩ := ih
    obtain ⟨z, hz, hf⟩ := htransform (blockOf n p k) hu.idle
    rw [blockTurns_succ]
    exact ⟨z, runsTo_append hu hz, by rw [hf, hk, hchain]⟩

/-! ## Reading the string -/

/-- While idle a read keeps its word for the host and changes nothing of the THC (spec/20_memory.md R70, R76). -/
theorem read_idle {s : State} (hs : s.pend = none) (off : Offset) :
    transact (.read off .four) { s with turns := [] } = withHost (some (busValue off .four s)) [] s :=
  read_noDraw (takesDraw_idle (s := { s with turns := [] }) hs off .four)

/-- While idle reads in a row return the values of the window, and change the host's own fields only. -/
theorem hostTurns_rd {s : State} (hs : s.pend = none) (offs : List Nat) : ∃ r q, hostTurns (offs.map rd) s =
    some (withHost r q s, offs.map fun off => busValue (BitVec.ofNat 10 off) .four s) := by
  induction offs generalizing s with
  | nil => exact ⟨s.rdata, s.turns, rfl⟩
  | cons off offs ih =>
    obtain ⟨r, q, hrest⟩ := ih (s := withHost (some (busValue (BitVec.ofNat 10 off) .four s)) [] s) hs
    refine ⟨r, q, ?_⟩
    show hostTurns (.bus (.read (BitVec.ofNat 10 off) .four) :: offs.map rd) s = _
    rw [hostTurns_bus, read_idle hs, hrest]
    rfl

/-- The bytes of the words of an array, in offset order, are the array (spec/43_digest_hex.md R407). -/
theorem hexString_busWords {n : Nat} (b : Vector Byte (4 * n)) : hexString (List.ofFn (busWord b)) = b.toList := by
  have hword (k : Fin n) : [byteAt (busWord b k) 0, byteAt (busWord b k) 1, byteAt (busWord b k) 2,
      byteAt (busWord b k) 3] = List.ofFn fun j : Fin 4 => b[4 * k.val + j.val] := by
    simp only [← byteAt_busWord]
    rfl
  calc hexString (List.ofFn (busWord b))
      = (List.ofFn fun k : Fin n => List.ofFn fun j : Fin 4 => b[4 * k.val + j.val]).flatten := by
        rw [hexString, List.flatMap, List.map_ofFn]
        exact congrArg (fun f => (List.ofFn f).flatten) (funext hword)
    _ = List.ofFn fun j : Fin (4 * n) => b[j] := (List.ofFn_mul' fun j : Fin (4 * n) => b[j]).symm
    _ = b.toList := by
        apply List.ext_getElem
        · simp
        · intro j _ _
          simp

/-- rdhex while idle: the string is HEX in order (spec/30_encoding.md R108, spec/43_digest_hex.md R407). -/
theorem hostTurns_rdhex {s : State} (hs : s.pend = none) :
    ∃ r q words, hostTurns rdhex s = some (withHost r q s, words) ∧ hexString words = s.hex.toList := by
  obtain ⟨r, q, hread⟩ := hostTurns_rd hs ((List.range 16).map fun k => 0x340 + 4 * k)
  have hwords : (((List.range 16).map fun k => 0x340 + 4 * k).map fun off => busValue (BitVec.ofNat 10 off) .four s) =
      List.ofFn (busWord (n := 16) s.hex) := by
    rw [List.map_map, ← List.map_coe_finRange_eq_range, List.map_map, List.ofFn_eq_map]
    refine List.map_congr_left fun k _ => ?_
    show busValue (at4 0x340 k.val) .four s = _
    rw [busValue_at4 rfl (by omega), regOfByte_hw, regValue, dataRead_idle hs]
  rw [hwords, List.map_map] at hread
  exact ⟨r, q, _, hread, hexString_busWords (n := 16) s.hex⟩

/-! ## The digests -/

/-- The turns that end a procedure return the digest that its command serializes, in hex (spec/45_host_protocol.md R505). -/
theorem hostTurns_digestTurns {ts : List Turn} {i : Instr} {s u t : State} {d : Vector Byte 32} (h : RunsTo ts s u)
    (hi : i ≠ .softReset) (ht : exec i u = .next t) (hd : t.digest = d) :
    ∃ z, (hostTurns (ts ++ digestTurns i) s).map (fun r => (r.1, hexString r.2)) = some (z, (hexEncode d).toList) ∧
      z.pend = none ∧ z.err = s.err ∧ z.errcode = s.errcode := by
  obtain ⟨r, hserialize⟩ := runsTo_run hi h.idle ht
  obtain ⟨v, hv⟩ := exec_next .hexEnc (withHost r [] t)
  obtain ⟨r', hencode⟩ := runsTo_run (by decide) hserialize.idle hv
  obtain ⟨-, hhex⟩ := exec_hexEnc_idle hserialize.idle hv
  obtain ⟨r'', q, words, hread, hstring⟩ := hostTurns_rdhex hencode.idle
  have hrun := runsTo_append h (runsTo_append hserialize hencode)
  refine ⟨withHost r'' q (withHost r' [] v), ?_, hrun.idle, hrun.err, hrun.errcode⟩
  rw [digestTurns, ← List.append_assoc, hostTurns_append_of_runsTo hrun, hread, Option.map_some, hstring]
  show some (_, v.hex.toList) = _
  rw [hhex, ← hd]
  rfl

/-- sha256's init and the transforms of k blocks leave the chain of those blocks in H (spec/45_host_protocol.md R502, R503). -/
theorem runsTo_shaChain {s : State} (hs : s.pend = none) (p : List Byte) (k : Nat) :
    ∃ u, RunsTo (run .shaInit ++ blockTurns shaTransform p k) s u ∧ u.h = shaChain p k := by
  obtain ⟨r, hinit⟩ := runsTo_run (by decide) hs (exec_oneStep rfl shaInit_micro hs)
  obtain ⟨u, hblocks, hh⟩ := runsTo_blockTurns (f := fun h b => compress h (shaWords b)) (chain := shaChain p)
    runsTo_shaTransform (fun _ => rfl) hinit.idle rfl k
  exact ⟨u, runsTo_append hinit hblocks, hh⟩

/-- keccak256's init and the transforms of k blocks leave the chain of those blocks in A (spec/45_host_protocol.md R510,
R511). -/
theorem runsTo_kecChain {s : State} (hs : s.pend = none) (p : List Byte) (k : Nat) :
    ∃ u, RunsTo (run .kecInit ++ blockTurns kecTransform p k) s u ∧ u.a = kecChain p k := by
  obtain ⟨r, hinit⟩ := runsTo_run (by decide) hs (exec_oneStep rfl kecInit_micro hs)
  obtain ⟨u, hblocks, ha⟩ := runsTo_blockTurns (f := fun a b => keccakF (xorRate a b)) (chain := kecChain p)
    runsTo_kecTransform (fun _ => rfl) hinit.idle rfl k
  exact ⟨u, runsTo_append hinit hblocks, ha⟩

/-- Settles O60: init and the transforms fold the padded message into H or A, whose serialization is read as its hex string. -/
theorem proceduresReturnTheDigests : Obligations.ProceduresReturnTheDigests := by
  refine ⟨fun s hs => ?_, fun s blk msg hs hlen => ?_, fun s blk msg hs => ?_⟩
  · obtain ⟨r, q, words, hread, hstring⟩ := hostTurns_rdhex hs
    exact ⟨_, words, hread, hstring⟩
  · obtain ⟨u, hu, hh⟩ := runsTo_shaChain hs (shaPadded msg) ((shaPadded msg).length / 64)
    rw [sha256, sha256Turns_eq blk hlen, ← List.append_assoc, sha256Digest, ← hh]
    exact hostTurns_digestTurns hu (by decide) (exec_oneStep rfl digSha_micro hu.idle) (serializeH_eq_ofFn _).symm
  · obtain ⟨u, hu, ha⟩ := runsTo_kecChain hs (kecPadded msg) ((kecPadded msg).length / 136)
    rw [keccak256, keccak256Turns_eq, ← List.append_assoc, keccak256Digest, ← ha]
    exact hostTurns_digestTurns hu (by decide) (exec_oneStep rfl digKec_micro hu.idle) rfl

end Sys2Proof.Stated
end

section
/-! SUPPORT. Errors: that commands leave ERR and ERRCODE, what a STATUS write clears, and that the first error lasts until
then. -/

namespace Sys2Proof.Stated

open Sys2Proof.Machine

/-! ## Commands and their data -/

/-- A command that runs from an idle state leaves the errors as they were: no micro-step writes them, nor does acceptance or
completion (spec/10_state.md R27). -/
theorem exec_idle_keepsError {i : Instr} {s t : State} (hi : i ≠ .softReset) (hs : s.pend = none)
    (ht : exec i s = .next t) : t.err = s.err ∧ t.errcode = s.errcode := by
  obtain ⟨u, hu, rfl⟩ := exec_idle_keepsFrame hi hs ht
  exact ⟨hu.err, hu.errcode⟩

/-- Settles O27: every command goes on, and ERR and ERRCODE are in the frame of the commands other than SOFT_RESET. -/
theorem noCommandFailsOnItsData : Obligations.NoCommandFailsOnItsData :=
  fun i s => ⟨exec_next i s, fun hs _ ht hi => exec_idle_keepsError hi hs ht⟩

/-! ## The STATUS write -/

/-- An aligned write to STATUS is StatusWrite, busy or idle (spec/60_exceptions.md R605). -/
theorem write_status (v : Word) (s : State) : transact (.write 0x008 .four v) s = statusWrite v s := rfl

/-- A bit written with 1 is cleared, with 0 kept. -/
theorem clearByOne_eq (one x : Bool) : (if one then false else x) = (x && !one) := by
  cases one <;> simp

/-- Settles O45: the write is StatusWrite, which clears DONE and ERR alike, by a bit of the word each. -/
theorem statusWriteClearsByOnes : Obligations.StatusWriteClearsByOnes := by
  intro v s
  rw [write_status, statusWrite, clearByOne_eq, clearByOne_eq]

/-- A STATUS write with bit 2 set clears ERR together with ERRCODE (spec/60_exceptions.md R605). -/
theorem statusWrite_clearsError {v : Word} (hv : v.getLsbD 2 = true) (s : State) :
    (statusWrite v s).err = false ∧ (statusWrite v s).errcode = 0 :=
  ⟨if_pos hv, if_pos hv⟩

/-! ## Recording -/

/-- Errors do not nest: while ERR = 1 a later one changes nothing (spec/60_exceptions.md R614). -/
theorem recordError_of_err {s : State} (hs : s.err = true) (e : ErrorCode) : recordError e s = s :=
  if_pos hs

/-- While ERR = 0 an error is recorded with its own code (spec/60_exceptions.md R603). -/
theorem recordError_errcode_of_clear {s : State} (hs : s.err = false) (e : ErrorCode) :
    (recordError e s).errcode = e.code := by
  simp [hs]

/-- Settles O46: the model's recording is that of the statements, a second one finds ERR set, and the codes are by
definition. -/
theorem firstErrorIsKept : Obligations.FirstErrorIsKept :=
  ⟨recordError_eq_afterError, recordError_recordError, rfl, rfl, rfl, rfl, rfl, rfl⟩

/-- Settles O47: both words have bit 2 set, so ERR is cleared, and recording depends on ERR alone. -/
theorem clearingTheErrorRearmsRecording : Obligations.ClearingTheErrorRearmsRecording := by
  intro s v e hv
  have hbit : v.getLsbD 2 = true := by
    rcases hv with rfl | rfl <;> decide
  obtain ⟨herr, hcode⟩ := statusWrite_clearsError hbit s
  rw [write_status]
  exact ⟨herr, hcode, recordError_err _ e, recordError_errcode_of_clear herr e, fun hs => recordError_of_err hs e⟩

end Sys2Proof.Stated
end

section
/-! SUPPORT. Reset: power-on as a reset of its own, the control state after one, and the three ways to cause one. -/

namespace Sys2Proof.Stated

open Sys2Proof.Machine

/-- Power-on is a reset, whatever the registers held, with draw number 0, no turn and no word read
(spec/70_reset_and_hazards.md R702, R704). -/
theorem resetState_eq_reset {s : State} (hd : s.draws = 0) (ht : s.turns = []) (hr : s.rdata = none) :
    resetState s = State.reset := by
  rw [resetState, hd, ht, hr]
  rfl

/-- Power-on gives the state after a reset (spec/70_reset_and_hazards.md R704). -/
theorem reset_eq_resetState : State.reset = resetState { State.reset with draws := 0 } :=
  (resetState_eq_reset rfl rfl rfl).symm

/-! ## The control state -/

/-- After a reset every field of STATUS is 0 (spec/70_reset_and_hazards.md R700). -/
theorem statusWord_resetState (s : State) : statusWord (resetState s) = 0x00000000 := by
  simp [statusWord]

/-- Settles O49: the control registers are constants of Reset(), and STATUS is made of them alone. -/
theorem resetDefinesTheControlState : Obligations.ResetDefinesTheControlState := by
  rw [Obligations.ResetDefinesTheControlState, reset_eq_resetState]
  have hstatus := statusWord_resetState
  exact ⟨⟨rfl, rfl, rfl, rfl, rfl, rfl, hstatus _⟩, fun s => ⟨rfl, rfl, rfl, rfl, rfl, rfl, hstatus s⟩⟩

/-- Settles O51: power-on is a reset, and every reset gives a state of the invariant. -/
theorem invariantHoldsAtReset : Obligations.InvariantHoldsAtReset := by
  rw [Obligations.InvariantHoldsAtReset, reset_eq_resetState]
  exact inv_resetState _

/-! ## The sources of a reset -/

/-- The reset input performs Reset() (spec/70_reset_and_hazards.md R702). -/
theorem step_reset (s : State) (rest : List Turn) :
    step { s with turns := .reset :: rest } = .next (resetState { s with turns := rest }) := rfl

/-- CommandWrite tests for SOFT_RESET first, busy or idle (spec/40_command_core.md R150). -/
theorem commandWrite_softReset (s : State) : commandWrite 0x000000FF s = resetState s :=
  if_pos rfl

/-- A bus turn that writes SOFT_RESET to CMD performs Reset() (spec/40_command_core.md R162). -/
theorem step_write_softReset (s : State) (rest : List Turn) :
    step { s with turns := .bus (.write 0x004 .four 0x000000FF) :: rest } =
      .next (resetState { s with turns := rest }) :=
  congrArg _ ((write_cmd _ _).trans (commandWrite_softReset _))

/-- Settles O50: the reset input, the CMD write and exec each perform the same Reset(), and power-on is one with draw
number 0. -/
theorem resetSourcesAgree : Obligations.ResetSourcesAgree := by
  refine ⟨fun s rest => ⟨?_, ?_⟩, fun s => resetState_eq_reset⟩
  · rw [step_reset, step_write_softReset]
  · rw [step_reset, exec_softReset]

end Sys2Proof.Stated
end
